-- ==== Sys2Proof/Word.lean ====
section
/-! DEFINITION. The widths and the byte-level data formats of GolayCore (00_scope.md R6, R10; 30_encoding.md R60). -/

namespace Sys2Proof

/-- A byte is 8 bits (R6). -/
abbrev Byte := BitVec 8

/-- A DataWord is 12 bits, every pattern valid (R61). -/
abbrev DataWord := BitVec 12

/-- The 11 check bits an EncodeTable entry holds (R24, R68). -/
abbrev Redundancy := BitVec 11

/-- An 11-bit syndrome, the index of the DecodeTable (R68, R123). -/
abbrev Syndrome := BitVec 11

/-- A 23-bit CorrectionMask or error pattern, laid out like slot bits 22..0 (R69). -/
abbrev Mask := BitVec 23

/-- The 24-bit slot of a fragment (R62). -/
abbrev Slot := BitVec 24

/-- The 48-bit payload field `P` of a command word (R70). -/
abbrev Payload := BitVec 48

/-- The 64-bit command word (R70). -/
abbrev CmdWord := BitVec 64

/-- The 64-bit response word (R71). -/
abbrev Response := BitVec 64

/-- A data block: 3 bytes that carry two DataWords (R64). -/
structure DataBlock where
  b0 : Byte
  b1 : Byte
  b2 : Byte
  deriving DecidableEq, Repr

/-- The two DataWords of a data block (R64). -/
structure WordPair where
  w0 : DataWord
  w1 : DataWord
  deriving DecidableEq, Repr

/-- A fragment: the 3 bytes of one codeword (R62). -/
structure Fragment where
  f0 : Byte
  f1 : Byte
  f2 : Byte
  deriving DecidableEq, Repr

/-- A codeword block: the 6 bytes of two fragments (R65). -/
structure CodeBlock where
  r0 : Byte
  r1 : Byte
  r2 : Byte
  r3 : Byte
  r4 : Byte
  r5 : Byte
  deriving DecidableEq, Repr

/-- What DECW gives for one fragment: the corrected DataWord and the correction flag (R126, R134). -/
structure Decoded where
  data : DataWord
  flag : Bool
  deriving DecidableEq, Repr

end Sys2Proof
end

