-- ==== Sys2Proof/Machine/Bits.lean ====
section
/-! DEFINITION. The spec's bit notation (00_scope.md R10, R11): concatenation, and the number of 1 bits. A slice
`v[hi:lo]` is written with the library's `BitVec.extractLsb'`, its lowest bit and its width. -/

namespace Sys2Proof.Bits

/-- `{hi, lo}` of R11: `hi` takes the high bits and `lo` the low bits of a value of width `k`, the sum of the two
widths. -/
def cat {n m : Nat} (k : Nat) (hi : BitVec n) (lo : BitVec m) (h : n + m = k := by rfl) : BitVec k :=
  (hi ++ lo).cast h

/-- `popcount(v)`, the Hamming weight `wt` of an error pattern (R11). -/
def popcount {n : Nat} (v : BitVec n) : Nat :=
  (List.range n).countP fun i => v.getLsbD i

/-- `v` with bit `i` inverted: the host-side `FLIP` of R79 on one value. -/
def flipBit {n : Nat} (v : BitVec n) (i : Nat) : BitVec n :=
  v ^^^ BitVec.twoPow n i

end Sys2Proof.Bits
end

