-- ==== Sys2Proof/Syntax.lean ====
section
/-! DEFINITION. The eight operations of GolayCore, one constructor for each row of the opcode table
(30_encoding.md R72, R73, R78). -/

namespace Sys2Proof

/-- An operation as a command word names it. Operand fields are exactly as wide as their values
(92_eei_decisions.md D13). SENC and SDEC take no operand from the command word: their operands are the host's
buffers (R72). -/
inductive Instr where
  /-- op 0: split a data block into two DataWords (R100). -/
  | split3 (b0 b1 b2 : Byte)
  /-- op 1: join two DataWords into a data block (R101). -/
  | join3 (w0 w1 : DataWord)
  /-- op 2: encode one DataWord (R110). -/
  | encw (d : DataWord)
  /-- op 3: decode one received fragment (R126). -/
  | decw (f0 f1 f2 : Byte)
  /-- op 4: encode a data block (R111). -/
  | enc24 (b0 b1 b2 : Byte)
  /-- op 5: decode a codeword block (R127). -/
  | dec48 (r0 r1 r2 r3 r4 r5 : Byte)
  /-- op 6: encode a buffer (R140). -/
  | senc
  /-- op 7: decode a buffer (R142). -/
  | sdec
  deriving DecidableEq, Repr

end Sys2Proof
end

