-- ==== Sys2Proof/WellFormed.lean ====
section
/-! DEFINITION. Which command words and which operations are well formed (30_encoding.md R70, R72, R74). -/

namespace Sys2Proof

namespace CmdFields

/-- `cmd[2:0]`, operation select (R70). -/
def op (c : CmdWord) : BitVec 3 := c.extractLsb' 0 3

/-- `cmd[7:3]`, reserved (R70). -/
def rsv0 (c : CmdWord) : BitVec 5 := c.extractLsb' 3 5

/-- `cmd[55:8]`, the payload `P` (R70). -/
def payload (c : CmdWord) : Payload := c.extractLsb' 8 48

/-- `cmd[63:56]`, reserved (R70). -/
def rsv1 (c : CmdWord) : BitVec 8 := c.extractLsb' 56 8

/-- How many payload bits, counted from `P[0]`, the operation uses; R72 requires the payload bits above them to be 0. -/
def payloadWidth (op : BitVec 3) : Nat :=
  match op.toNat with
  | 0 | 1 | 3 | 4 => 24
  | 2 => 12
  | 5 => 48
  | _ => 0

/-- `rsv0` is 0 (R70, R74). -/
def rsv0Clear (c : CmdWord) : Bool := rsv0 c == 0

/-- `rsv1` is 0 (R70, R74). -/
def rsv1Clear (c : CmdWord) : Bool := rsv1 c == 0

/-- Every payload bit that R72 requires to be 0 is 0. -/
def payloadClear (c : CmdWord) : Bool := (payload c >>> payloadWidth (op c)) == 0

/-- A command word spells an operation exactly when every bit R70 and R72 require to be 0 is 0 (R74). -/
def wellFormed (c : CmdWord) : Bool :=
  rsv0Clear c && rsv1Clear c && payloadClear c

end CmdFields

/-- Every `Instr` is well formed: each operand field has exactly the width of its value, so an operand out of range
cannot be written (R61, 92_eei_decisions.md D13). What can be ill formed is a command word: `CmdFields.wellFormed`. -/
def Instr.wellFormed : Instr → Bool
  | .split3 _ _ _ => true
  | .join3 _ _ => true
  | .encw _ => true
  | .decw _ _ _ => true
  | .enc24 _ _ _ => true
  | .dec48 _ _ _ _ _ _ => true
  | .senc => true
  | .sdec => true

end Sys2Proof
end

