-- ==== Sys2Proof/Decode.lean ====
section
/-! DEFINITION. Decoding a command word (30_encoding.md R77), total on every 64-bit value, and the encoder that
writes the words of R70 and R72. -/

namespace Sys2Proof

open Sys2Proof.Bits

/-- Why a command word spells no operation. -/
inductive DecodeError where
  /-- A must-be-0 bit of the word is 1 (R74, R160 code 3). Raised by `decode`; safe: nothing is claimed of the word. -/
  | illegalCommand (cmd : CmdWord)
  deriving DecidableEq, Repr

/-- `MASK` of R77, the masks of opcode_table.json by op number. -/
def decodeMask (op : BitVec 3) : CmdWord :=
  match op.toNat with
  | 0 => 0xFFFFFFFF000000FF#64
  | 1 => 0xFFFFFFFF000000FF#64
  | 2 => 0xFFFFFFFFFFF000FF#64
  | 3 => 0xFFFFFFFF000000FF#64
  | 4 => 0xFFFFFFFF000000FF#64
  | 5 => 0xFF000000000000FF#64
  | 6 => 0xFFFFFFFFFFFFFFFF#64
  | _ => 0xFFFFFFFFFFFFFFFF#64

/-- `MATCH` of R77, the match values of opcode_table.json by op number. -/
def decodeMatch (op : BitVec 3) : CmdWord :=
  match op.toNat with
  | 0 => 0x0000000000000000#64
  | 1 => 0x0000000000000001#64
  | 2 => 0x0000000000000002#64
  | 3 => 0x0000000000000003#64
  | 4 => 0x0000000000000004#64
  | 5 => 0x0000000000000005#64
  | 6 => 0x0000000000000006#64
  | _ => 0x0000000000000007#64

/-- Byte `i` of a payload, `P[8i+7:8i]` (R72). -/
def payloadByte (p : Payload) (i : Nat) : Byte := p.extractLsb' (8 * i) 8

/-- `Operation(op, P)` of R77: the operands are taken from the payload as R72 lays them out. -/
def operation (op : BitVec 3) (p : Payload) : Instr :=
  match op.toNat with
  | 0 => .split3 (payloadByte p 0) (payloadByte p 1) (payloadByte p 2)
  | 1 => .join3 (p.extractLsb' 0 12) (p.extractLsb' 12 12)
  | 2 => .encw (p.extractLsb' 0 12)
  | 3 => .decw (payloadByte p 0) (payloadByte p 1) (payloadByte p 2)
  | 4 => .enc24 (payloadByte p 0) (payloadByte p 1) (payloadByte p 2)
  | 5 => .dec48 (payloadByte p 0) (payloadByte p 1) (payloadByte p 2)
      (payloadByte p 3) (payloadByte p 4) (payloadByte p 5)
  | 6 => .senc
  | _ => .sdec

/-- The decode algorithm of R77. -/
def decode (c : CmdWord) : Except DecodeError Instr :=
  let op := CmdFields.op c
  if c &&& decodeMask op = decodeMatch op then
    .ok (operation op (CmdFields.payload c))
  else
    .error (.illegalCommand c)

/-- What the decoder reads from an instruction of `nbits` bits whose value is `w`, bit 0 the least significant bit of
the command word; the bits above `nbits` are 0. A command word has exactly 64 bits (R76). -/
def decodeTableWord (nbits w : Nat) : Option Instr :=
  if nbits ≤ 64 then
    match decode (BitVec.ofNat 64 (w % 2 ^ nbits)) with
    | .ok i => some i
    | .error _ => none
  else
    none

/-- The op number of an operation (R73). -/
def opNumber : Instr → BitVec 3
  | .split3 _ _ _ => 0
  | .join3 _ _ => 1
  | .encw _ => 2
  | .decw _ _ _ => 3
  | .enc24 _ _ _ => 4
  | .dec48 _ _ _ _ _ _ => 5
  | .senc => 6
  | .sdec => 7

/-- `{b2, b1, b0}`, three bytes with the first in the low bits (R72). -/
def cat3 (b0 b1 b2 : Byte) : BitVec 24 :=
  cat 24 (cat 16 b2 b1) b0

/-- `{r5, .., r0}`, six bytes with the first in the low bits (R66, R72). -/
def cat6 (r0 r1 r2 r3 r4 r5 : Byte) : BitVec 48 :=
  cat 48 (cat3 r3 r4 r5) (cat3 r0 r1 r2)

/-- The payload of an operation, its unused bits 0 (R72). -/
def encodePayload : Instr → Payload
  | .split3 b0 b1 b2 => cat 48 0#24 (cat3 b0 b1 b2)
  | .join3 w0 w1 => cat 48 0#24 (cat 24 w1 w0)
  | .encw d => cat 48 0#36 d
  | .decw f0 f1 f2 => cat 48 0#24 (cat3 f0 f1 f2)
  | .enc24 b0 b1 b2 => cat 48 0#24 (cat3 b0 b1 b2)
  | .dec48 r0 r1 r2 r3 r4 r5 => cat6 r0 r1 r2 r3 r4 r5
  | .senc => 0
  | .sdec => 0

/-- The command word of an operation: `{rsv1, P, rsv0, op}` with both reserved fields 0 (R70). -/
def encode (i : Instr) : CmdWord :=
  cat 64 (cat 56 0#8 (encodePayload i)) (cat 8 0#5 (opNumber i))

end Sys2Proof
end

