-- ==== Sys2Proof/Machine/Operands.lean ====
section
/-! DEFINITION. Every operand form and result layout of the core: the slot and field functions of a fragment
(30_encoding.md R62 to R67; 40_bitpacker.md R103 to R105), the blocks as bytes and as one value (R65, R66), and the
response word of each block operation (R71, R72). -/

namespace Sys2Proof.Machine

open Sys2Proof.Bits

/-- `PackFragment(d, r)` (R63, R103): the byte fields with the placement of 90_conflicts.md C1. -/
def packFragment (d : DataWord) (r : Redundancy) : Fragment where
  f0 := r.extractLsb' 0 8
  f1 := cat 8 (d.extractLsb' 0 5) (r.extractLsb' 8 3)
  f2 := cat 8 0#1 (d.extractLsb' 5 7)

/-- `FragData` (R67, R104): `{f2[6:0], f1[7:3]}`; `f2[7]` and `f0` are not read. -/
def fragData (f : Fragment) : DataWord :=
  cat 12 (f.f2.extractLsb' 0 7) (f.f1.extractLsb' 3 5)

/-- `FragRed` (R67, R105): `{f1[2:0], f0}`; `f2` is not read. -/
def fragRed (f : Fragment) : Redundancy :=
  cat 11 (f.f1.extractLsb' 0 3) f.f0

/-- The slot `S = {f2, f1, f0}` of a fragment (R62). -/
def slot (f : Fragment) : Slot :=
  cat3 f.f0 f.f1 f.f2

/-- The fragment whose slot is `s` (R62). -/
def ofSlot (s : Slot) : Fragment where
  f0 := s.extractLsb' 0 8
  f1 := s.extractLsb' 8 8
  f2 := s.extractLsb' 16 8

/-- The combined value `W = {d, r}`, slot bits 22..0 (R69, R124). -/
def combined (d : DataWord) (r : Redundancy) : Mask :=
  cat 23 d r

/-- The data half of a combined value, `W[22:11]` (R69, R124). -/
def maskData (w : Mask) : DataWord := w.extractLsb' 11 12

/-- The redundancy half of a combined value, `W[10:0]` (R69). -/
def maskRed (w : Mask) : Redundancy := w.extractLsb' 0 11

/-- The two fragments of DataWord 0 and DataWord 1 as a codeword block (R65). -/
def joinFragments (a b : Fragment) : CodeBlock where
  r0 := a.f0
  r1 := a.f1
  r2 := a.f2
  r3 := b.f0
  r4 := b.f1
  r5 := b.f2

/-- The first fragment of a codeword block, `r0, r1, r2` (R65). -/
def firstFragment (b : CodeBlock) : Fragment := ⟨b.r0, b.r1, b.r2⟩

/-- The second fragment of a codeword block, `r3, r4, r5` (R65). -/
def secondFragment (b : CodeBlock) : Fragment := ⟨b.r3, b.r4, b.r5⟩

/-- A codeword block as one value `B = {r5, .., r0}` (R66). -/
def blockBits (b : CodeBlock) : BitVec 48 :=
  cat6 b.r0 b.r1 b.r2 b.r3 b.r4 b.r5

/-- The codeword block whose value is `v` (R66). -/
def ofBlockBits (v : BitVec 48) : CodeBlock where
  r0 := v.extractLsb' 0 8
  r1 := v.extractLsb' 8 8
  r2 := v.extractLsb' 16 8
  r3 := v.extractLsb' 24 8
  r4 := v.extractLsb' 32 8
  r5 := v.extractLsb' 40 8

/-- The bytes of a data block in buffer order (R64). -/
def dataBytes (b : DataBlock) : List Byte := [b.b0, b.b1, b.b2]

/-- The bytes of a codeword block in buffer order (R65). -/
def codeBytes (b : CodeBlock) : List Byte := [b.r0, b.r1, b.r2, b.r3, b.r4, b.r5]

/-- SPLIT3's response: `res[11:0] = w0`, `res[23:12] = w1`, all else 0 (R71, R72). -/
def wordsResponse (p : WordPair) : Response :=
  cat 64 0#40 (cat 24 p.w1 p.w0)

/-- JOIN3's response: `res[23:0] = {b2, b1, b0}`, all else 0 (R71, R72). -/
def dataResponse (b : DataBlock) : Response :=
  cat 64 0#40 (cat3 b.b0 b.b1 b.b2)

/-- ENCW's response: `res[23:0] = {f2, f1, f0}`, all else 0 (R71, R72). -/
def fragmentResponse (f : Fragment) : Response :=
  cat 64 0#40 (slot f)

/-- DECW's response: `res[11:0] = d_out`, `res[48] = flag`, all else 0 (R71, R72). -/
def decodedResponse (x : Decoded) : Response :=
  cat 64 (cat 52 0#15 (cat 37 (BitVec.ofBool x.flag) 0#36)) x.data

/-- ENC24's response: `res[47:0] = {r5, .., r0}`, all else 0 (R71, R72). -/
def codeResponse (b : CodeBlock) : Response :=
  cat 64 0#16 (blockBits b)

/-- DEC48's response: `res[23:0] = {b2, b1, b0}`, `res[49:48] = cnt`, all else 0 (R71, R72). -/
def blockDecodedResponse (b : DataBlock) (cnt : BitVec 2) : Response :=
  cat 64 (cat 40 0#14 (cat 26 cnt 0#24)) (cat3 b.b0 b.b1 b.b2)

end Sys2Proof.Machine
end

