-- ==== Sys2Proof/Machine/Flags.lean ====
section
/-! DEFINITION. The three outputs the spec treats as flags (10_state.md R22): the correction flag, the count of a block
and the count of a stream. None is held; each is computed where it is output. -/

namespace Sys2Proof.Machine

open Sys2Proof.Bits

/-- The correction flag of a word: 1 exactly when its CorrectionMask is nonzero (R22 (a), R125). -/
def correctionFlag (m : Mask) : Bool := decide (m ≠ 0#23)

/-- The correction count of a block, `cnt = flag0 + flag1`, 2 bits (R22 (b), R127). -/
def blockCount (flag0 flag1 : Bool) : BitVec 2 :=
  (BitVec.ofBool flag0).setWidth 2 + (BitVec.ofBool flag1).setWidth 2

/-- The correction count of a stream after one more block: a natural number that never wraps (R22 (c), R142). -/
def streamCount (count : Nat) (cnt : BitVec 2) : Nat := count + cnt.toNat

end Sys2Proof.Machine
end

