-- ==== Sys2Proof/Config.lean ====
section
/-! DEFINITION. What an implementation of GolayCore fixes and the spec leaves open: the contents of its two tables
(00_scope.md R7 to R9). MAX_LEN, LATENCY and the count width are open parameters that no rule depends on. -/

namespace Sys2Proof.Config

/-- The contents of ENC_TABLE that an instance holds from before its first operation (R7, R181). FREE: the spec gives
no contents (92_eei_decisions.md D5), so the constant has no body. -/
opaque encTable : Vector Redundancy 4096

/-- The contents of DEC_TABLE that an instance holds from before its first operation (R8, R181). FREE: the spec gives
no contents (92_eei_decisions.md D6), so the constant has no body. -/
opaque decTable : Vector Mask 2048

end Sys2Proof.Config
end

