-- ==== Sys2Proof/Machine/State.lean ====
section
/-! DEFINITION. The state of one GolayCore instance with its stream sequencer, and the host interface as plain data
(10_state.md R20 to R31), the reasons a step stops, and the state after reset. GolayCore has no register, no program
counter, no stored flag and no control register (R20 to R23), so State has no field for one. -/

namespace Sys2Proof.Machine

/-- Which stream operation a run belongs to (43_stream.md R143). -/
inductive StreamOp where
  | senc
  | sdec
  deriving DecidableEq, Repr

/-- `PreconditionViolation(code)` with the value it records (60_exceptions.md R160). -/
inductive Violation where
  /-- Code 1, `SENC_LEN`: SENC was given an input whose length is not a multiple of 3; records `len(in)`. -/
  | sencLen (len : Nat)
  /-- Code 2, `SDEC_LEN`: SDEC was given an input whose length is not a multiple of 6; records `len(in)`. -/
  | sdecLen (len : Nat)
  deriving DecidableEq, Repr

/-- The run of a stream call: `k`, `count` and `status` of 10_state.md R27 (the status is the constructor), with the
operation the run belongs to. The buffers `in` and `out` of the same rule stand in `State.buffers`, since the caller
owns them. -/
inductive Stream where
  /-- No stream call (R182, R183). -/
  | idle
  /-- `status = Running`: `k` is the next block's index, `count` the corrections so far (R143). -/
  | running (op : StreamOp) (k count : Nat)
  /-- `status = Done`: the run is over and its results are returned (R146). -/
  | done (op : StreamOp) (k count : Nat)
  /-- `status = Faulted(code)`: the run is over and returns nothing (R146, R162). It has no `k` and no `count`: a
  faulted launch sets neither (R143). -/
  | faulted (v : Violation)
  deriving DecidableEq, Repr

/-- The buffers, by the host's names, that a stream call running on another instance uses (20_memory.md R51). -/
structure Claim where
  inputName : Nat
  outputName : Nat
  deriving DecidableEq, Repr

/-- The two buffers that the host passes by reference with a stream operation (30_encoding.md R72, R76; 10_state.md R27),
each with the host's name for it (20_memory.md R51). -/
structure Buffers where
  /-- `in`, read-only for the operation. -/
  input : List Byte
  /-- `out`, append-only for the operation. -/
  output : List Byte
  /-- The host's name of the input buffer. -/
  inputName : Nat
  /-- The host's name of the output buffer. -/
  outputName : Nat
  deriving DecidableEq, Repr

/-- No buffers are held: the core keeps none beyond a call (R27). The two names are the model's own (log entry 16). -/
def Buffers.absent : Buffers where
  input := []
  output := []
  inputName := 0
  outputName := 1

/-- An operation as the host presents it: the command word (30_encoding.md R70), and the buffers that a stream operation
is passed through the host interface (R72, R76). A block operation reads no buffer. -/
structure Presented where
  word : CmdWord
  buffers : Buffers
  deriving DecidableEq, Repr

/-- The whole state. Every field is plain data. -/
structure State where
  /-- `ENC_TABLE` (R24): the parameter of R7, held by the instance (R31). No step writes it (R26). -/
  encTable : Vector Redundancy 4096
  /-- `DEC_TABLE` (R25): the parameter of R8, held by the instance (R31). No step writes it (R26). -/
  decTable : Vector Mask 2048
  /-- The operations the host presents and the instance has not accepted, in host order (R49, R70), each with its own
  buffers. -/
  commands : List Presented
  /-- The response word that the step just taken returned, `none` when it returned none (R71, R22). -/
  res : Option Response
  /-- `in` and `out` of the operation accepted last (R27, R40). They are not held beyond it. -/
  buffers : Buffers
  /-- What the stream calls now running on other instances hold (R51, R187). -/
  others : List Claim
  /-- The run of this instance's stream call (R27). -/
  stream : Stream
  deriving DecidableEq, Repr

/-- What stops the machine. A precondition violation is no `Fault` here: it ends its call and the machine goes on
(R168), so it is a next state whose `stream` is `faulted`. -/
inductive Fault where
  /-- Raised by the sequencer's step in a state whose run is past its last block, `k > n`: neither R144, R145 nor R146
  gives a step. No launch leads to such a state. Safe: the model stops where the spec says nothing. -/
  | sequencerPastEnd (k n : Nat)
  /-- Raised by a block step whose bytes are not all in the input buffer (R40). No launch leads to such a state.
  Safe: the model stops where the spec says nothing. -/
  | readOutsideInput (off n : Nat)
  deriving DecidableEq, Repr

/-- Why an instruction or a command word is given no meaning. -/
inductive Refusal where
  /-- Raised by an arm of `exec` for an operation without a meaning. Safe. No arm raises it. -/
  | notModelled (mnemonic : String)
  /-- Raised by `step` for a command word with a must-be-0 bit set: `IllegalCommand`, code 3, recording the word
  (R74, R160, R163). Safe: the spec gives the word no meaning. -/
  | illegalCommand (cmd : CmdWord)
  /-- Raised by a SENC or SDEC launch whose buffers break the host's duties R187 (a), (b): it names a buffer that a call
  running on another instance uses, or it would append to its own input. Safe: R51 and R187 give such a launch no meaning
  and refuse it. -/
  | sharedBuffer (inputName outputName : Nat)
  deriving DecidableEq, Repr

/-- The machine right after reset (R30, R180 to R183): the tables hold the parameter's contents, no command is
presented, no response is returned, no buffer is held and no stream call runs. The names and the other instances' calls
are the host's; the spec gives them no reset value (log entry 16). -/
def State.reset : State where
  encTable := Config.encTable
  decTable := Config.decTable
  commands := []
  res := none
  buffers := Buffers.absent
  others := []
  stream := .idle

end Sys2Proof.Machine
end

