-- ==== Sys2Proof/Machine/Ops.lean ====
section
/-! DEFINITION. The named operations over the state: table reads, buffer reads and appends, responses, taking a fault
and what follows one, accepting a command, and the host's duties at a stream launch. -/

namespace Sys2Proof.Machine

/-- What a meaning answers. -/
abbrev Result := Host.Outcome State Fault Refusal

/-- `ENC_TABLE[d]` (R12, R24): the index has the key's width, so the read is always in range (R40). -/
def State.enc (s : State) (d : DataWord) : Redundancy := s.encTable[d.toNat]'d.isLt

/-- `DEC_TABLE[s]` (R12, R25): the index has the key's width, so the read is always in range (R40). -/
def State.dec (s : State) (x : Syndrome) : Mask := s.decTable[x.toNat]'x.isLt

/-- `MemRead(in, off, n)` (R12): the bytes at offsets `off .. off+n-1`, `none` where not all of them exist (R40). -/
def memRead (buf : List Byte) (off n : Nat) : Option (List Byte) :=
  if off + n ≤ buf.length then some ((buf.drop off).take n) else none

/-- `Append(out, ys)` (R12, R50): the only write the core makes to a buffer. -/
def State.append (s : State) (ys : List Byte) : State := { s with buffers.output := s.buffers.output ++ ys }

/-- A block operation returns its response word (R71) and has no other effect (R41, R47). -/
def respond (w : Response) (s : State) : Result := .next { s with res := some w }

/-- The numeric code of a precondition violation (R160). -/
def Violation.code : Violation → Nat
  | .sencLen _ => 1
  | .sdecLen _ => 2

/-- The value a precondition violation records (R160). -/
def Violation.recorded : Violation → Nat
  | .sencLen len => len
  | .sdecLen len => len

/-- The numeric code of a refused command word (R160). -/
def illegalCommandCode : Nat := 3

/-- TAKING A FAULT: the run ends in `Faulted(code)` with the recorded length (R143, R160, R162). It saves no state,
changes no mode and goes to no vector, since none exist, and no effect of the faulting operation is visible (R167). -/
def takeFault (v : Violation) (s : State) : Result := .next { s with stream := .faulted v }

/-- What follows an operation. Its outputs are not held after it (R22, R29), its buffers are not retained (R27), and a
run that is over is over (R146), a faulted one too: there is no handler and no trap return, and the next operation is a
new launch (R168). -/
def State.retire (s : State) : State := { s with res := none, buffers := Buffers.absent, stream := .idle }

/-- The host presents an operation after those already presented (R49, R70). -/
def State.present (s : State) (p : Presented) : State := { s with commands := s.commands ++ [p] }

/-- The instance accepts the next operation in host order, when one is presented (R49, R183): its command word, and the
state in which it starts, holding the buffers it is passed. -/
def State.accept (s : State) : Option (CmdWord × State) :=
  match s.commands with
  | [] => none
  | p :: rest => some (p.word, { s.retire with commands := rest, buffers := p.buffers })

/-- A launch names a buffer that a call running on another instance appends to, as its output or as its input (R51,
R187). -/
def Buffers.namesAppended (b : Buffers) (others : List Claim) : Bool :=
  others.any fun c => c.outputName == b.outputName || c.outputName == b.inputName

/-- A call names a buffer that a call running on another instance reads, as its output or as its input, so that the two
calls do not each use their own (R187 (b); 93_implementation_defined.md U12). -/
def Buffers.namesRead (b : Buffers) (others : List Claim) : Bool :=
  others.any fun c => c.inputName == b.outputName || c.inputName == b.inputName

/-- The blocks of a call would be appended to its own input, which changes while the call runs (R187 (b)). A call without
a block appends nothing (R148). -/
def Buffers.appendsToItself (b : Buffers) : Bool :=
  !b.input.isEmpty && b.inputName == b.outputName

/-- A call that runs would share an input buffer, another call's or its own (R187 (b)). -/
def Buffers.sharesInput (b : Buffers) (others : List Claim) : Bool :=
  b.namesRead others || b.appendsToItself

/-- What a stream call returns to the host through its buffers and count (R71, R146). -/
inductive StreamResult where
  /-- SENC returns the extended output buffer. -/
  | encoded (out : List Byte)
  /-- SDEC returns the correction count and the extended output buffer. -/
  | decoded (count : Nat) (out : List Byte)
  deriving DecidableEq, Repr

/-- What the stream call returns in this state: its result when its run is Done, nothing while it runs and nothing when
it faulted (R146, R162). -/
def State.streamResult (s : State) : Option StreamResult :=
  match s.stream with
  | .done .senc _ _ => some (.encoded s.buffers.output)
  | .done .sdec _ count => some (.decoded count s.buffers.output)
  | .running _ _ _ => none
  | .faulted _ => none
  | .idle => none

end Sys2Proof.Machine
end

