-- ==== Sys2Proof/Machine/BitPacker.lean ====
section
/-! DEFINITION. The BitPacker's operations SPLIT3 and JOIN3 (40_bitpacker.md R100 to R102). -/

namespace Sys2Proof.Machine

open Sys2Proof.Bits

/-- SPLIT3 (R64, R100): `w0 = {b1[3:0], b0}`, `w1 = {b1[7:4], b2}`. -/
def split3 (b : DataBlock) : WordPair where
  w0 := cat 12 (b.b1.extractLsb' 0 4) b.b0
  w1 := cat 12 (b.b1.extractLsb' 4 4) b.b2

/-- JOIN3 (R64, R101): `b0 = w0[7:0]`, `b1 = {w1[11:8], w0[11:8]}`, `b2 = w1[7:0]`. -/
def join3 (p : WordPair) : DataBlock where
  b0 := p.w0.extractLsb' 0 8
  b1 := cat 8 (p.w1.extractLsb' 8 4) (p.w0.extractLsb' 8 4)
  b2 := p.w1.extractLsb' 0 8

/-- The meaning of SPLIT3 (R100). -/
def execSplit3 (b0 b1 b2 : Byte) (s : State) : Result :=
  respond (wordsResponse (split3 ⟨b0, b1, b2⟩)) s

/-- The meaning of JOIN3 (R101). -/
def execJoin3 (w0 w1 : DataWord) (s : State) : Result :=
  respond (dataResponse (join3 ⟨w0, w1⟩)) s

end Sys2Proof.Machine
end

