-- ==== Sys2Proof/Machine/Decoder.lean ====
section
/-! DEFINITION. The decoder's operations DECW and DEC48 (42_decoder.md R120 to R127). They compute with whatever tables
they are given (92_eei_decisions.md D19) and signal nothing at any error weight (R131, R164). -/

namespace Sys2Proof.Machine

/-- The syndrome calculator (R121 to R123): `s = ENC_TABLE[d_rx] ^ r_rx`. -/
def syndrome (enc : DataWord → Redundancy) (f : Fragment) : Syndrome :=
  enc (fragData f) ^^^ fragRed f

/-- The CorrectionMask of a received fragment (R124): `m = DEC_TABLE[s]`. -/
def correctionMask (enc : DataWord → Redundancy) (dec : Syndrome → Mask) (f : Fragment) : Mask :=
  dec (syndrome enc f)

/-- The corrector (R124): `W' = {d_rx, r_rx} ^ m`. -/
def corrected (enc : DataWord → Redundancy) (dec : Syndrome → Mask) (f : Fragment) : Mask :=
  combined (fragData f) (fragRed f) ^^^ correctionMask enc dec f

/-- DECW under two tables (R126): `d_out = W'[22:11]` and `flag = (m != 0)`. The corrected redundancy, the syndrome and
the mask are not outputs (R134). -/
def decw (enc : DataWord → Redundancy) (dec : Syndrome → Mask) (f : Fragment) : Decoded where
  data := maskData (corrected enc dec f)
  flag := correctionFlag (correctionMask enc dec f)

/-- DEC48 under two tables (R127): DECW of each fragment, JOIN3 of the two words, and the count of the block. -/
def dec48 (enc : DataWord → Redundancy) (dec : Syndrome → Mask) (b : CodeBlock) : DataBlock × BitVec 2 :=
  let x := decw enc dec (firstFragment b)
  let y := decw enc dec (secondFragment b)
  (join3 ⟨x.data, y.data⟩, blockCount x.flag y.flag)

/-- The meaning of DECW (R126). -/
def execDecw (f0 f1 f2 : Byte) (s : State) : Result :=
  respond (decodedResponse (decw s.enc s.dec ⟨f0, f1, f2⟩)) s

/-- The meaning of DEC48 (R127). -/
def execDec48 (r0 r1 r2 r3 r4 r5 : Byte) (s : State) : Result :=
  let x := dec48 s.enc s.dec ⟨r0, r1, r2, r3, r4, r5⟩
  respond (blockDecodedResponse x.1 x.2) s

end Sys2Proof.Machine
end

