-- ==== Sys2Proof/Machine/Encoder.lean ====
section
/-! DEFINITION. The encoder's operations ENCW and ENC24 (41_encoder.md R110 to R112). -/

namespace Sys2Proof.Machine

/-- ENCW under a table (R110): read the redundancy, then pack the fragment. -/
def encw (enc : DataWord → Redundancy) (d : DataWord) : Fragment :=
  packFragment d (enc d)

/-- ENC24 under a table (R111): SPLIT3, then ENCW of each DataWord. -/
def enc24 (enc : DataWord → Redundancy) (b : DataBlock) : CodeBlock :=
  let p := split3 b
  joinFragments (encw enc p.w0) (encw enc p.w1)

/-- The meaning of ENCW (R110). -/
def execEncw (d : DataWord) (s : State) : Result :=
  respond (fragmentResponse (encw s.enc d)) s

/-- The meaning of ENC24 (R111). -/
def execEnc24 (b0 b1 b2 : Byte) (s : State) : Result :=
  respond (codeResponse (enc24 s.enc ⟨b0, b1, b2⟩)) s

end Sys2Proof.Machine
end

