-- ==== Sys2Proof/Machine/Stream.lean ====
section
/-! DEFINITION. The stream sequencer (43_stream.md R140 to R148): SENC and SDEC as a small-step machine, launch, block
step and end (R143 to R146), and as whole-call functions (R140, R142). -/

namespace Sys2Proof.Machine

/-- The block size of a stream operation in bytes of input (R45). -/
def StreamOp.blockBytes : StreamOp → Nat
  | .senc => 3
  | .sdec => 6

/-- `n`, the number of blocks of an input of `len` bytes (R143). -/
def StreamOp.blocks (op : StreamOp) (len : Nat) : Nat := len / op.blockBytes

/-- The length precondition (R44, R160). -/
def StreamOp.lengthOk (op : StreamOp) (len : Nat) : Bool := len % op.blockBytes == 0

/-- The violation that a wrong length raises (R160). -/
def StreamOp.violation (op : StreamOp) (len : Nat) : Violation :=
  match op with
  | .senc => .sencLen len
  | .sdec => .sdecLen len

/-- The launch of a stream operation (R143). One that names a buffer another call appends to has no meaning (R51). Then
the length precondition is decided, before any byte is read and any block processed (R161, R166), so a wrong length faults
and appends nothing. A launch of a right length has no meaning when its call would share an input buffer (R187 (b)). -/
def launch (op : StreamOp) (s : State) : Result :=
  if s.buffers.namesAppended s.others then
    .refused (.sharedBuffer s.buffers.inputName s.buffers.outputName)
  else if op.lengthOk s.buffers.input.length then
    if s.buffers.sharesInput s.others then
      .refused (.sharedBuffer s.buffers.inputName s.buffers.outputName)
    else
      .next { s with stream := .running op 0 0 }
  else
    takeFault (op.violation s.buffers.input.length) s

/-- The SENC block step (R144). -/
def sencBlock (k count : Nat) (s : State) : Result :=
  match memRead s.buffers.input (3 * k) 3 with
  | some [b0, b1, b2] =>
    .next { s.append (codeBytes (enc24 s.enc ⟨b0, b1, b2⟩)) with stream := .running .senc (k + 1) count }
  | _ => .fault (.readOutsideInput (3 * k) 3)

/-- The SDEC block step (R145). -/
def sdecBlock (k count : Nat) (s : State) : Result :=
  match memRead s.buffers.input (6 * k) 6 with
  | some [r0, r1, r2, r3, r4, r5] =>
    let x := dec48 s.enc s.dec ⟨r0, r1, r2, r3, r4, r5⟩
    .next { s.append (dataBytes x.1) with stream := .running .sdec (k + 1) (streamCount count x.2) }
  | _ => .fault (.readOutsideInput (6 * k) 6)

/-- One step of a running sequencer (R144 to R146): a block while `k < n`, the end at `k = n`. -/
def sequencerStep (op : StreamOp) (k count : Nat) (s : State) : Result :=
  let n := op.blocks s.buffers.input.length
  if k < n then
    match op with
    | .senc => sencBlock k count s
    | .sdec => sdecBlock k count s
  else if k = n then
    .next { s with stream := .done op k count }
  else
    .fault (.sequencerPastEnd k n)

/-- The meaning of SENC: its launch (R140, R143). The blocks follow step by step, and `step` accepts no other command
until the run is over (R49). -/
def execSenc (s : State) : Result := launch .senc s

/-- The meaning of SDEC: its launch (R142, R143). -/
def execSdec (s : State) : Result := launch .sdec s

/-- The loop of SENC over a whole buffer (R140): the bytes it appends. -/
def sencBytes (enc : DataWord → Redundancy) : List Byte → List Byte
  | b0 :: b1 :: b2 :: rest => codeBytes (enc24 enc ⟨b0, b1, b2⟩) ++ sencBytes enc rest
  | _ => []

/-- SENC as a whole call (R140). -/
def sencCall (enc : DataWord → Redundancy) (input output : List Byte) : Except Violation (List Byte) :=
  if input.length % 3 ≠ 0 then .error (.sencLen input.length)
  else .ok (output ++ sencBytes enc input)

/-- The loop of SDEC over a whole buffer (R142): its count and the bytes it appends. -/
def sdecBytes (enc : DataWord → Redundancy) (dec : Syndrome → Mask) : List Byte → Nat × List Byte
  | r0 :: r1 :: r2 :: r3 :: r4 :: r5 :: rest =>
    let x := dec48 enc dec ⟨r0, r1, r2, r3, r4, r5⟩
    let y := sdecBytes enc dec rest
    (x.2.toNat + y.1, dataBytes x.1 ++ y.2)
  | _ => (0, [])

/-- SDEC as a whole call (R142). -/
def sdecCall (enc : DataWord → Redundancy) (dec : Syndrome → Mask) (input output : List Byte) :
    Except Violation (Nat × List Byte) :=
  if input.length % 6 ≠ 0 then .error (.sdecLen input.length)
  else
    let y := sdecBytes enc dec input
    .ok (y.1, output ++ y.2)

end Sys2Proof.Machine
end

