-- ==== Sys2Proof/Machine/Dispatch.lean ====
section
/-! DEFINITION. One arm for each operation of 30_encoding.md R73. -/

namespace Sys2Proof.Machine

def exec (i : Instr) (s : State) : Host.Outcome State Fault Refusal :=
  match i with
  | .split3 b0 b1 b2 => Sys2Proof.Machine.execSplit3 b0 b1 b2 s
  | .join3 w0 w1 => Sys2Proof.Machine.execJoin3 w0 w1 s
  | .encw d => Sys2Proof.Machine.execEncw d s
  | .decw f0 f1 f2 => Sys2Proof.Machine.execDecw f0 f1 f2 s
  | .enc24 b0 b1 b2 => Sys2Proof.Machine.execEnc24 b0 b1 b2 s
  | .dec48 r0 r1 r2 r3 r4 r5 => Sys2Proof.Machine.execDec48 r0 r1 r2 r3 r4 r5 s
  | .senc => Sys2Proof.Machine.execSenc s
  | .sdec => Sys2Proof.Machine.execSdec s

end Sys2Proof.Machine
end

