-- ==== Sys2Proof/Machine/Step.lean ====
section
/-! DEFINITION. One step of the instance: a block of the running stream call, or the next operation in host order, or
nothing when no command is presented (20_memory.md R49; 60_exceptions.md R166). -/

namespace Sys2Proof.Machine

/-- One step. While a stream call runs no command is accepted (R49). A command word is decoded first and an illegal one
is refused with no effect (R163, R166). With nothing to do the instance stays as it is, its last outputs no longer
held (R22, R183). -/
def step (s : State) : Host.Outcome State Fault Refusal :=
  match s.stream with
  | .running op k count => sequencerStep op k count { s with res := none }
  | .idle | .done _ _ _ | .faulted _ =>
    match s.accept with
    | none => .next s.retire
    | some (c, t) =>
      match decode c with
      | .ok i => exec i t
      | .error (.illegalCommand w) => .refused (.illegalCommand w)

/-- `s` with an instruction of `nbits` bits, whose value is `w`, presented so that the very next step accepts it: first
in host order, with the buffers that `s` holds, and no stream call running (R49, R70). -/
def State.withFetchWord (s : State) (nbits w : Nat) : State :=
  { s with
    commands := ⟨BitVec.ofNat 64 (w % 2 ^ nbits), s.buffers⟩ :: s.commands
    stream := match s.stream with
      | .running _ _ _ => .idle
      | .idle => .idle
      | .done op k count => .done op k count
      | .faulted v => .faulted v }

end Sys2Proof.Machine
end

