-- ==== Sys2Proof/Machine/Channel.lean ====
section
/-! DEFINITION. The channel and the test notation of 30_encoding.md R79: the host-side FLIP, an error pattern on a
fragment, and the pseudo-instruction RTRIP. The core takes no part in FLIP. -/

namespace Sys2Proof.Machine

open Sys2Proof.Bits

/-- A fragment received with an error pattern on its 23 meaningful bits; the unused bit 23 keeps its value
(R128, R130). -/
def addError (e : Mask) (f : Fragment) : Fragment :=
  ofSlot (slot f ^^^ cat 24 0#1 e)

/-- A fragment with its unused bit `f2[7]` inverted (R132). -/
def flipUnused (f : Fragment) : Fragment :=
  { f with f2 := flipBit f.f2 7 }

/-- `FLIP` of bit `i` of a codeword block, numbered as R66 numbers it (R79). -/
def flipBlock (b : CodeBlock) (i : Nat) : CodeBlock :=
  ofBlockBits (flipBit (blockBits b) i)

/-- The 48-bit value of the codeword block in an ENC24 response (R72). -/
def responseBlock (w : Response) : CodeBlock := ofBlockBits (w.extractLsb' 0 48)

/-- The first operation that RTRIP expands to (R79). -/
def rtripFirst (b : DataBlock) : Instr := .enc24 b.b0 b.b1 b.b2

/-- The second operation that RTRIP expands to, DEC48 on the six result bytes of the first (R79). -/
def rtripSecond (w : Response) : Instr :=
  let b := responseBlock w
  .dec48 b.r0 b.r1 b.r2 b.r3 b.r4 b.r5

/-- What RTRIP computes: DEC48 of ENC24 (R79). -/
def rtrip (enc : DataWord → Redundancy) (dec : Syndrome → Mask) (b : DataBlock) : DataBlock × BitVec 2 :=
  dec48 enc dec (enc24 enc b)

end Sys2Proof.Machine
end

