-- ==== Sys2Proof/Machine/Tables.lean ====
section
/-! DEFINITION. What the spec says of the two tables: the syndrome of an error pattern (42_decoder.md R128), the
well-formedness condition `TablesWF` (R129), and the algorithm that builds a DecodeTable (R135). The functions take the
tables as arguments, as 00_scope.md R7 and R8 say; the operations use the tables of State. -/

namespace Sys2Proof.Machine

open Sys2Proof.Bits

/-- The codeword of a DataWord on its 23 meaningful bits, `{d, ENC_TABLE[d]}` (R62, R129). -/
def codeword (enc : DataWord → Redundancy) (d : DataWord) : Mask :=
  combined d (enc d)

/-- `synd(e) = ENC_TABLE[e[22:11]] ^ e[10:0]` (R128). -/
def synd (enc : DataWord → Redundancy) (e : Mask) : Syndrome :=
  enc (maskData e) ^^^ maskRed e

/-- Linearity of ENC_TABLE, R129 (a). -/
def Linear (enc : DataWord → Redundancy) : Prop :=
  ∀ a b : DataWord, enc (a ^^^ b) = enc a ^^^ enc b

/-- Distance 7, R129 (b). -/
def Distance7 (enc : DataWord → Redundancy) : Prop :=
  ∀ d : DataWord, d ≠ 0#12 → 7 ≤ popcount (codeword enc d)

/-- Coset leaders, R129 (c): `DEC_TABLE[s]` is the unique pattern of weight at most 3 whose syndrome is `s`. -/
def CosetLeaders (enc : DataWord → Redundancy) (dec : Syndrome → Mask) : Prop :=
  ∀ s : Syndrome, ∀ e : Mask, (popcount e ≤ 3 ∧ synd enc e = s) ↔ e = dec s

/-- `TablesWF(ENC_TABLE, DEC_TABLE)` (R129), the named premise of every correctness claim. -/
structure TablesWF (enc : DataWord → Redundancy) (dec : Syndrome → Mask) : Prop where
  linear : Linear enc
  distance : Distance7 enc
  leaders : CosetLeaders enc dec

/-- The patterns of `n` bits with exactly `w` bits set, as numbers. -/
def patterns : Nat → Nat → List Nat
  | _, 0 => [0]
  | 0, _ + 1 => []
  | n + 1, w + 1 => patterns n (w + 1) ++ (patterns n w).map (2 ^ n + ·)

/-- The 23-bit patterns in the order R135 visits them: weight 0, then 1, 2 and 3. -/
def errorPatterns : List Mask :=
  (patterns 23 0 ++ patterns 23 1 ++ patterns 23 2 ++ patterns 23 3).map (BitVec.ofNat 23)

/-- The DecodeTable that R135 builds from an EncodeTable: entry `s` is the last pattern written there, `none` where the
algorithm leaves its entry undefined. -/
def buildDec (enc : DataWord → Redundancy) (s : Syndrome) : Option Mask :=
  (errorPatterns.filter fun e => synd enc e = s).getLast?

end Sys2Proof.Machine
end

