-- ==== Sys2Proof/Safety.lean ====
section
/-! DEFINITION. What counts as a safe state and a safe run, in the terms the claims use. -/

namespace Sys2Proof.Machine

open Sys2Proof.Bits

/-- The tables an instance holds are well formed (42_decoder.md R129): the premise of every correctness claim. -/
abbrev State.TablesWF (s : State) : Prop := Sys2Proof.Machine.TablesWF s.enc s.dec

/-- A stream call is running (43_stream.md R143, R146). -/
def State.busy (s : State) : Bool :=
  match s.stream with
  | .running _ _ _ => true
  | .idle => false
  | .done _ _ _ => false
  | .faulted _ => false

/-- The host keeps its duties for these buffers: no call on another instance appends to one of them or reads one of them,
and their call does not append to its own input (R51, R187). -/
def Buffers.Exclusive (b : Buffers) (others : List Claim) : Prop :=
  b.namesAppended others = false ∧ b.sharesInput others = false

/-- What holds of `op`, `k` and `count` in a run that started from a launch: the host kept its duties (R51), the input
has a right length (R160), `k` is at most `n` (R143), each block counted at most 2 corrections (R151), and SENC counts
none (R144). -/
def RunInv (s : State) (op : StreamOp) (k count : Nat) : Prop :=
  s.buffers.Exclusive s.others ∧ op.lengthOk s.buffers.input.length = true ∧
    k ≤ op.blocks s.buffers.input.length ∧ count ≤ 2 * k ∧ (op = .senc → count = 0)

/-- The invariant of the machine: a run is what a launch and block steps can make of it, a run that is Done took all
its blocks (R146), and a Faulted one recorded the wrong length of its input (R160). -/
def State.Inv (s : State) : Prop :=
  match s.stream with
  | .idle => True
  | .running op k count => RunInv s op k count
  | .done op k count => RunInv s op k count ∧ k = op.blocks s.buffers.input.length
  | .faulted (.sencLen len) => len = s.buffers.input.length ∧ len % 3 ≠ 0
  | .faulted (.sdecLen len) => len = s.buffers.input.length ∧ len % 6 ≠ 0

/-- A state from which the machine never stops: the invariant holds, and every command the host presents spells an
operation (R74) and keeps the duties of R187. -/
def State.Ready (s : State) : Prop :=
  s.Inv ∧ ∀ p ∈ s.commands, CmdFields.wellFormed p.word = true ∧ p.buffers.Exclusive s.others

/-- The output of a run that was launched on the output buffer `out0`: the blocks done so far, appended to it, and for
SDEC the count of those blocks (R46, R140, R142). -/
def State.Progress (s : State) (out0 : List Byte) : Prop :=
  match s.stream with
  | .running .senc k _ | .done .senc k _ =>
    s.buffers.output = out0 ++ sencBytes s.enc (s.buffers.input.take (3 * k))
  | .running .sdec k count | .done .sdec k count =>
    let y := sdecBytes s.enc s.dec (s.buffers.input.take (6 * k))
    s.buffers.output = out0 ++ y.2 ∧ count = y.1
  | .faulted _ => s.buffers.output = out0
  | .idle => True

/-- The codewords of a buffer, three bytes each (R65, R151). -/
def fragmentsOf : List Byte → List Fragment
  | f0 :: f1 :: f2 :: rest => ⟨f0, f1, f2⟩ :: fragmentsOf rest
  | _ => []

/-- `k` steps, one after the other, stopping at the first fault or refusal: `Host.Core.run` of this machine, in the
machine's own types. -/
def runSteps : Nat → State → Host.Outcome State Fault Refusal
  | 0, s => .next s
  | k + 1, s =>
    match step s with
    | .next t => runSteps k t
    | .fault r => .fault r
    | .refused r => .refused r

/-- The command words that decode to `i` are exactly those with this op number, a payload that fits and both reserved
fields 0 (R70, R72). -/
def SpelledBy (i : Instr) (op : BitVec 3) (fits : Payload → Prop) : Prop :=
  ∀ c : CmdWord, decode c = .ok i ↔
    c.extractLsb' 0 3 = op ∧ c.extractLsb' 3 5 = 0#5 ∧ fits (c.extractLsb' 8 48) ∧ c.extractLsb' 56 8 = 0#8

/-- The payload `{b2, b1, b0}` with `P[47:24] = 0` (R72). -/
def ThreeBytes (b0 b1 b2 : Byte) (p : Payload) : Prop :=
  p.extractLsb' 0 8 = b0 ∧ p.extractLsb' 8 8 = b1 ∧ p.extractLsb' 16 8 = b2 ∧ p.extractLsb' 24 24 = 0#24

/-- `d` and `r` are the received DataWord and redundancy of the fragment `f0, f1, f2`, field by field (R67). -/
def ReceivedAs (f0 f1 f2 : Byte) (d : DataWord) (r : Redundancy) : Prop :=
  d.extractLsb' 0 5 = f1.extractLsb' 3 5 ∧ d.extractLsb' 5 7 = f2.extractLsb' 0 7 ∧
    r.extractLsb' 0 8 = f0 ∧ r.extractLsb' 8 3 = f1.extractLsb' 0 3

/-- `w0` and `w1` are the DataWords of the data block `b0, b1, b2`, field by field (R64). -/
def WordsOf (b0 b1 b2 : Byte) (w0 w1 : DataWord) : Prop :=
  w0.extractLsb' 0 8 = b0 ∧ w0.extractLsb' 8 4 = b1.extractLsb' 0 4 ∧
    w1.extractLsb' 0 8 = b2 ∧ w1.extractLsb' 8 4 = b1.extractLsb' 4 4

end Sys2Proof.Machine
end

