-- ==== Sys2Proof/Certificates/Slice0/Obligations.lean ====
section
/-! DEFINITION. The statements for the provers, from the numbered rules of spec/. Every statement about the tables holds
for every contents of the tables an instance holds; a correctness claim takes `TablesWF` as its premise (R129). The spec
marks these of its rules as derived by itself: R77, R101 (the layout), R102, R106, R113, R114, R115, R128, R130, R131, R133,
R135, R141, R143 to R148, R150, R151, R152; the statements that formalise them have basis 'derived'. -/

open Sys2Proof Sys2Proof.Machine Sys2Proof.Bits

/-! ## Command words -/

/-- R70, R72, R77: the word an operation is encoded as is well formed and decodes to that operation, with every operand
at every value. -/
def Obligations.DecodeOfEncodeIsIdentity : Prop :=
  ∀ i : Instr, CmdFields.wellFormed (encode i) = true ∧ decode (encode i) = .ok i

/-- R70, R72: every word that spells an operation is the one word that operation is encoded as. -/
def Obligations.EncodeOfDecodeIsIdentity : Prop :=
  ∀ (c : CmdWord) (i : Instr), decode c = .ok i → encode i = c

/-- R74: a word with a nonzero bit in `rsv0`, `rsv1` or a payload field that must be 0 spells no operation, and every
other word spells one, so no op value is reserved. An instance that is not busy refuses such a word. -/
def Obligations.ReservedBitsAreIllegal : Prop :=
  ∀ c : CmdWord,
    let op := c.extractLsb' 0 3
    let reservedSet : Prop :=
      c.extractLsb' 3 5 ≠ 0#5 ∨ c.extractLsb' 56 8 ≠ 0#8 ∨
        ((op = 0#3 ∨ op = 1#3 ∨ op = 3#3 ∨ op = 4#3) ∧ c.extractLsb' 32 24 ≠ 0#24) ∨
        (op = 2#3 ∧ c.extractLsb' 20 36 ≠ 0#36) ∨
        ((op = 6#3 ∨ op = 7#3) ∧ c.extractLsb' 8 48 ≠ 0#48)
    (reservedSet → decode c = .error (.illegalCommand c) ∧
      ∀ (s : State) (b : Buffers) (rest : List Presented), s.busy = false → s.commands = ⟨c, b⟩ :: rest →
        step s = .refused (.illegalCommand c)) ∧
    (¬ reservedSet → ∃ i : Instr, decode c = .ok i ∧ opNumber i = op)

/-- The words of 95_test_vectors.md section 2.6 decode as that section says. -/
def Obligations.ListedWordsDecode : Prop :=
  decode 0x0000000056341200#64 = .ok (.split3 0x12 0x34 0x56) ∧
  decode 0x0000000035641201#64 = .ok (.join3 0x412 0x356) ∧
  decode 0x0000000000041202#64 = .ok (.encw 0x412) ∧
  decode 0x00000000A097B303#64 = .ok (.decw 0xB3 0x97 0xA0) ∧
  decode 0x0000000056341204#64 = .ok (.enc24 0x12 0x34 0x56) ∧
  decode 0x001AB28D2097B205#64 = .ok (.dec48 0xB2 0x97 0x20 0x8D 0xB2 0x1A) ∧
  decode 0x0080000000000005#64 = .ok (.dec48 0 0 0 0 0 0x80) ∧
  decode 0x0000000000000006#64 = .ok .senc ∧
  decode 0x0000000000000007#64 = .ok .sdec ∧
  decode 0x0000000056341208#64 = .error (.illegalCommand 0x0000000056341208#64) ∧
  decode 0x0100000000000005#64 = .error (.illegalCommand 0x0100000000000005#64) ∧
  decode 0x0000000000100002#64 = .error (.illegalCommand 0x0000000000100002#64) ∧
  decode 0x0000000100000003#64 = .error (.illegalCommand 0x0000000100000003#64) ∧
  decode 0x0000000000000106#64 = .error (.illegalCommand 0x0000000000000106#64)

/-! ## The step around an operation -/

/-- R49, R70, R77: with no stream call running, a step takes the first presented word that spells an operation and is
that operation, started with the buffers presented with it and with the outputs of the step before no longer held
(log entry 5). -/
def Obligations.StepRunsDecodedInstruction : Prop :=
  ∀ (s : State) (c : CmdWord) (b : Buffers) (rest : List Presented) (i : Instr),
    s.busy = false → s.commands = ⟨c, b⟩ :: rest → decode c = .ok i →
      step s = exec i { s with commands := rest, buffers := b, res := none, stream := .idle }

/-- R183, R27: with no command presented and no call running, nothing happens but that the last outputs and buffers are
no longer held (log entries 3 and 5). -/
def Obligations.IdleStepChangesNothing : Prop :=
  ∀ s : State, s.busy = false → s.commands = [] →
    step s = .next { s with res := none, buffers := Buffers.absent, stream := .idle }

/-- R49: while a stream call runs the instance accepts no command: the presented words stay, and the step is the same
whatever words are presented. -/
def Obligations.RunningCallAcceptsNoCommand : Prop :=
  ∀ (s t : State) (cs : List Presented), s.busy = true → step s = .next t →
    t.commands = s.commands ∧ step { s with commands := cs } = .next { t with commands := cs }

/-- R71: a response word is returned by a step exactly when the step takes a block operation (op 0 to 5); a stream
operation returns none. -/
def Obligations.OnlyBlockOperationsRespond : Prop :=
  ∀ s t : State, step s = .next t →
    (t.res ≠ none ↔ s.busy = false ∧ ∃ (p : Presented) (rest : List Presented) (i : Instr),
      s.commands = p :: rest ∧ decode p.word = .ok i ∧ i ≠ .senc ∧ i ≠ .sdec)

/-- R168: an operation presented after a fault is not affected by the fault. -/
def Obligations.FaultDoesNotAffectLaterOperations : Prop :=
  ∀ (s : State) (v : Violation), step { s with stream := .faulted v } = step { s with stream := .idle }

/-- R181: the tables hold the parameter's contents at reset, and no step and no operation changes them. -/
def Obligations.TablesNeverChange : Prop :=
  State.reset.encTable = Config.encTable ∧ State.reset.decTable = Config.decTable ∧
  (∀ s t : State, step s = .next t → t.encTable = s.encTable ∧ t.decTable = s.decTable) ∧
  (∀ (i : Instr) (s t : State), exec i s = .next t → t.encTable = s.encTable ∧ t.decTable = s.decTable)

/-- R50: a step of a running call only appends to the output buffer and never reads it back: what it appends, and
everything else it does, is the same whatever bytes the buffer held. An operation, a launch too, neither changes nor reads
it. -/
def Obligations.OutputIsOnlyAppendedTo : Prop :=
  (∀ s t : State, s.busy = true → step s = .next t → ∃ ys : List Byte,
    t.buffers.output = s.buffers.output ++ ys ∧
    ∀ o : List Byte, step { s with buffers.output := o } = .next { t with buffers.output := o ++ ys }) ∧
  (∀ (i : Instr) (s t : State), exec i s = .next t →
    t.buffers.output = s.buffers.output ∧
    ∀ o : List Byte, exec i { s with buffers.output := o } = .next { t with buffers.output := o })

/-- R41, R47, R187: no step of a running call changes its input buffer or the buffers' names, no operation changes the
buffers it is passed, and no step changes what other instances hold. -/
def Obligations.StepKeepsTheHostsInputs : Prop :=
  (∀ s t : State, step s = .next t → t.others = s.others) ∧
  (∀ s t : State, s.busy = true → step s = .next t →
    t.buffers.input = s.buffers.input ∧ t.buffers.inputName = s.buffers.inputName ∧
    t.buffers.outputName = s.buffers.outputName) ∧
  (∀ (i : Instr) (s t : State), exec i s = .next t → t.buffers = s.buffers ∧ t.others = s.others)

/-- R28: the response of a block operation is a function of its operands and the two tables alone. -/
def Obligations.ResponsesDependOnOperandsAndTables : Prop :=
  ∀ (i : Instr) (s : State), i ≠ .senc → i ≠ .sdec → ∃ w : Response,
    ∀ s' : State, s'.encTable = s.encTable → s'.decTable = s.decTable →
      exec i s' = .next { s' with res := some w }

/-- R41, R47: the six block operations change the response only. -/
def Obligations.BlockOperationsWriteOnlyTheResponse : Prop :=
  ∀ (i : Instr) (s t : State), i ≠ .senc → i ≠ .sdec → exec i s = .next t →
    t.encTable = s.encTable ∧ t.decTable = s.decTable ∧ t.commands = s.commands ∧ t.buffers = s.buffers ∧
    t.others = s.others ∧ t.stream = s.stream

/-- R143, R162: the launches of SENC and SDEC, faulted ones too, change the run only. -/
def Obligations.LaunchesWriteOnlyTheRun : Prop :=
  ∀ s t : State, exec .senc s = .next t ∨ exec .sdec s = .next t →
    t.encTable = s.encTable ∧ t.decTable = s.decTable ∧ t.commands = s.commands ∧ t.res = s.res ∧
    t.buffers = s.buffers ∧ t.others = s.others

/-! ## BitPacker -/

/-- R100: SPLIT3, its encoding, its result and that it does nothing else and always completes. -/
def Obligations.Split3SplitsTheBlock : Prop :=
  ∀ b0 b1 b2 : Byte,
    SpelledBy (.split3 b0 b1 b2) 0#3 (ThreeBytes b0 b1 b2) ∧
    ∀ s : State, ∃ (w : Response) (w0 w1 : DataWord),
      WordsOf b0 b1 b2 w0 w1 ∧
      exec (.split3 b0 b1 b2) s = .next { s with res := some w } ∧
      w.extractLsb' 0 12 = w0 ∧ w.extractLsb' 12 12 = w1 ∧ w.extractLsb' 24 40 = 0#40

/-- R101: JOIN3, its encoding, its result and that it does nothing else and always completes. -/
def Obligations.Join3JoinsTheWords : Prop :=
  ∀ w0 w1 : DataWord,
    SpelledBy (.join3 w0 w1) 1#3
      (fun p => p.extractLsb' 0 12 = w0 ∧ p.extractLsb' 12 12 = w1 ∧ p.extractLsb' 24 24 = 0#24) ∧
    ∀ s : State, ∃ w : Response,
      exec (.join3 w0 w1) s = .next { s with res := some w } ∧
      WordsOf (w.extractLsb' 0 8) (w.extractLsb' 8 8) (w.extractLsb' 16 8) w0 w1 ∧
      w.extractLsb' 24 40 = 0#40

/-- R102: SPLIT3 and JOIN3 are mutually inverse. -/
def Obligations.SplitAndJoinAreInverse : Prop :=
  (∀ b : DataBlock, join3 (split3 b) = b) ∧ (∀ p : WordPair, split3 (join3 p) = p)

/-- R106: the fragment field functions are inverse to PackFragment; only the unused bit is lost. -/
def Obligations.FragmentFieldsInvertPackFragment : Prop :=
  (∀ (d : DataWord) (r : Redundancy), fragData (packFragment d r) = d ∧ fragRed (packFragment d r) = r) ∧
  (∀ f : Fragment, packFragment (fragData f) (fragRed f) = { f with f2 := f.f2 &&& 0x7F#8 })

/-! ## Encoder -/

/-- R110: ENCW, its encoding, its result (the slot `{0, d, ENC_TABLE[d]}`, which is 0 for `d = 0` under a well-formed
table) and that it does nothing else and always completes. -/
def Obligations.EncwEncodesTheWord : Prop :=
  ∀ d : DataWord,
    SpelledBy (.encw d) 2#3 (fun p => p.extractLsb' 0 12 = d ∧ p.extractLsb' 12 36 = 0#36) ∧
    ∀ s : State, ∃ w : Response,
      exec (.encw d) s = .next { s with res := some w } ∧
      w.extractLsb' 0 11 = s.enc d ∧ w.extractLsb' 11 12 = d ∧ w.extractLsb' 23 41 = 0#41 ∧
      (s.TablesWF → d = 0#12 → w = 0#64)

/-- R111: ENC24, its encoding, its result (the layout of R66; six zero bytes for the zero block under a well-formed
table) and that it does nothing else and always completes. -/
def Obligations.Enc24EncodesTheBlock : Prop :=
  ∀ b0 b1 b2 : Byte,
    SpelledBy (.enc24 b0 b1 b2) 4#3 (ThreeBytes b0 b1 b2) ∧
    ∀ s : State, ∃ (w : Response) (w0 w1 : DataWord),
      WordsOf b0 b1 b2 w0 w1 ∧
      exec (.enc24 b0 b1 b2) s = .next { s with res := some w } ∧
      w.extractLsb' 0 11 = s.enc w0 ∧ w.extractLsb' 11 12 = w0 ∧ w.extractLsb' 23 1 = 0#1 ∧
      w.extractLsb' 24 11 = s.enc w1 ∧ w.extractLsb' 35 12 = w1 ∧ w.extractLsb' 47 17 = 0#17 ∧
      (s.TablesWF → b0 = 0#8 → b1 = 0#8 → b2 = 0#8 → w = 0#64)

/-- R113: the code is systematic under every table, for a word and in byte terms for a block. -/
def Obligations.EncodingIsSystematic : Prop :=
  ∀ enc : DataWord → Redundancy,
    (∀ d : DataWord, fragData (encw enc d) = d ∧ (slot (encw enc d)).extractLsb' 11 12 = d) ∧
    ∀ b : DataBlock,
      let c := enc24 enc b
      c.r1.extractLsb' 3 5 = b.b0.extractLsb' 0 5 ∧ c.r2.extractLsb' 0 3 = b.b0.extractLsb' 5 3 ∧
      c.r2.extractLsb' 3 4 = b.b1.extractLsb' 0 4 ∧
      c.r4.extractLsb' 3 5 = b.b2.extractLsb' 0 5 ∧ c.r5.extractLsb' 0 3 = b.b2.extractLsb' 5 3 ∧
      c.r5.extractLsb' 3 4 = b.b1.extractLsb' 4 4

/-- R114: under a well-formed table the zero word and the zero block encode to zero bytes. -/
def Obligations.ZeroEncodesToZero : Prop :=
  ∀ s : State, s.TablesWF →
    s.enc 0#12 = 0#11 ∧ exec (.encw 0#12) s = .next { s with res := some 0#64 } ∧
    exec (.enc24 0#8 0#8 0#8) s = .next { s with res := some 0#64 }

/-- R115: under a well-formed table the encoder's slot is linear, and every entry is the XOR of the basis entries at its
set bits. -/
def Obligations.EncoderIsLinear : Prop :=
  ∀ (enc : DataWord → Redundancy) (dec : Syndrome → Mask), Sys2Proof.Machine.TablesWF enc dec →
    (∀ a b : DataWord, slot (encw enc (a ^^^ b)) = slot (encw enc a) ^^^ slot (encw enc b)) ∧
    ∀ d : DataWord, enc d =
      (List.range 12).foldl (fun r i => if d.getLsbD i then r ^^^ enc (BitVec.twoPow 12 i) else r) 0#11

/-! ## Decoder -/

/-- R126: DECW, its encoding, its result and that it does nothing else and always completes, under every table; under a
well-formed one the flag is 0 exactly at syndrome 0. -/
def Obligations.DecwDecodesTheFragment : Prop :=
  ∀ f0 f1 f2 : Byte,
    SpelledBy (.decw f0 f1 f2) 3#3 (ThreeBytes f0 f1 f2) ∧
    ∀ s : State, ∃ (w : Response) (d : DataWord) (r : Redundancy) (m : Mask),
      ReceivedAs f0 f1 f2 d r ∧ m = s.dec (s.enc d ^^^ r) ∧
      exec (.decw f0 f1 f2) s = .next { s with res := some w } ∧
      w.extractLsb' 0 12 = d ^^^ m.extractLsb' 11 12 ∧ w.extractLsb' 12 36 = 0#36 ∧
      w.getLsbD 48 = decide (m ≠ 0#23) ∧ w.extractLsb' 49 15 = 0#15 ∧
      (s.TablesWF → (w.getLsbD 48 = false ↔ s.enc d ^^^ r = 0#11))

/-- R127: DEC48, its encoding, its result and that it does nothing else and always completes, under every table. -/
def Obligations.Dec48DecodesTheBlock : Prop :=
  ∀ r0 r1 r2 r3 r4 r5 : Byte,
    SpelledBy (.dec48 r0 r1 r2 r3 r4 r5) 5#3
      (fun p => p.extractLsb' 0 8 = r0 ∧ p.extractLsb' 8 8 = r1 ∧ p.extractLsb' 16 8 = r2 ∧
        p.extractLsb' 24 8 = r3 ∧ p.extractLsb' 32 8 = r4 ∧ p.extractLsb' 40 8 = r5) ∧
    ∀ s : State, ∃ (w : Response) (d0 d1 : DataWord) (x0 x1 : Redundancy) (m0 m1 : Mask),
      ReceivedAs r0 r1 r2 d0 x0 ∧ ReceivedAs r3 r4 r5 d1 x1 ∧
      m0 = s.dec (s.enc d0 ^^^ x0) ∧ m1 = s.dec (s.enc d1 ^^^ x1) ∧
      exec (.dec48 r0 r1 r2 r3 r4 r5) s = .next { s with res := some w } ∧
      WordsOf (w.extractLsb' 0 8) (w.extractLsb' 8 8) (w.extractLsb' 16 8)
        (d0 ^^^ m0.extractLsb' 11 12) (d1 ^^^ m1.extractLsb' 11 12) ∧
      w.extractLsb' 24 24 = 0#24 ∧
      (w.extractLsb' 48 2).toNat = (if m0 = 0#23 then 0 else 1) + (if m1 = 0#23 then 0 else 1) ∧
      w.extractLsb' 50 14 = 0#14

/-- R127: the two halves of DEC48 are independent: a word of the result, and its share of the count, do not depend on
the other half's bytes. -/
def Obligations.Dec48HalvesAreIndependent : Prop :=
  ∀ (enc : DataWord → Redundancy) (dec : Syndrome → Mask) (a b a' b' : Fragment),
    (split3 (dec48 enc dec (joinFragments a b)).1).w0 = (split3 (dec48 enc dec (joinFragments a b')).1).w0 ∧
    (split3 (dec48 enc dec (joinFragments a b)).1).w1 = (split3 (dec48 enc dec (joinFragments a' b)).1).w1 ∧
    (dec48 enc dec (joinFragments a b)).2.toNat =
      (decw enc dec a).flag.toNat + (decw enc dec b).flag.toNat

/-- R132, R75: the encoder writes the unused bit 0 and the decoder's output does not depend on it, in DECW and in both
halves of DEC48. -/
def Obligations.UnusedBitsAreIgnored : Prop :=
  ∀ s : State,
    (∀ d : DataWord, (encw s.enc d).f2.getLsbD 7 = false) ∧
    (∀ f0 f1 f2 : Byte, exec (.decw f0 f1 (f2 ^^^ 0x80#8)) s = exec (.decw f0 f1 f2) s) ∧
    ∀ r0 r1 r2 r3 r4 r5 : Byte,
      exec (.dec48 r0 r1 (r2 ^^^ 0x80#8) r3 r4 r5) s = exec (.dec48 r0 r1 r2 r3 r4 r5) s ∧
      exec (.dec48 r0 r1 r2 r3 r4 (r5 ^^^ 0x80#8)) s = exec (.dec48 r0 r1 r2 r3 r4 r5) s

/-- R128: under a linear table the syndrome of a received fragment depends on the error pattern alone. -/
def Obligations.SyndromeDependsOnTheErrorAlone : Prop :=
  ∀ (enc : DataWord → Redundancy), Linear enc → ∀ (d : DataWord) (e : Mask),
    syndrome enc (addError e (encw enc d)) = synd enc e

/-- R130: under well-formed tables DECW corrects every error pattern of weight at most 3, with flag 1 exactly when the
pattern is not 0. -/
def Obligations.DecodingCorrectsUpToThreeErrors : Prop :=
  ∀ s : State, s.TablesWF → ∀ (d : DataWord) (e : Mask), popcount e ≤ 3 →
    let f := addError e (encw s.enc d)
    exec (.decw f.f0 f.f1 f.f2) s =
      .next { s with res := some (decodedResponse ⟨d, decide (1 ≤ popcount e)⟩) }

/-- R131: beyond the limit DECW still completes: always a wrong word, flag 1 at weights 4 to 6, and flag 0 on an
erroneous word exactly when the error is a nonzero codeword, which has weight at least 7. -/
def Obligations.BeyondTheLimitDecodingIsSilentlyWrong : Prop :=
  ∀ s : State, s.TablesWF → ∀ (d : DataWord) (e : Mask), e ≠ 0#23 →
    let f := addError e (encw s.enc d)
    ∃ (x : DataWord) (flag : Bool),
      exec (.decw f.f0 f.f1 f.f2) s = .next { s with res := some (decodedResponse ⟨x, flag⟩) } ∧
      (4 ≤ popcount e → x ≠ d) ∧
      (4 ≤ popcount e → popcount e ≤ 6 → flag = true) ∧
      (flag = false ↔ ∃ c : DataWord, e = codeword s.enc c) ∧
      (flag = false → 7 ≤ popcount e) ∧
      ∃ c : DataWord, e ^^^ s.dec (synd s.enc e) = codeword s.enc c ∧ x = d ^^^ c ∧ (4 ≤ popcount e → c ≠ 0#12)

/-- R133: under well-formed tables the mask is 0 exactly at syndrome 0, so the flag is set exactly at a nonzero
syndrome. -/
def Obligations.FlagIsNonzeroSyndrome : Prop :=
  ∀ (enc : DataWord → Redundancy) (dec : Syndrome → Mask), Sys2Proof.Machine.TablesWF enc dec →
    dec 0#11 = 0#23 ∧ (∀ x : Syndrome, x ≠ 0#11 → dec x ≠ 0#23) ∧
    ∀ f : Fragment, (decw enc dec f).flag = decide (syndrome enc f ≠ 0#11)

/-- R8: under well-formedness the DecodeTable is determined by the EncodeTable. -/
def Obligations.DecodeTableIsDeterminedByEncodeTable : Prop :=
  ∀ (enc : DataWord → Redundancy) (dec dec' : Syndrome → Mask),
    Sys2Proof.Machine.TablesWF enc dec → Sys2Proof.Machine.TablesWF enc dec' → dec = dec'

/-- R129, R135: from a linear EncodeTable of distance 7 the algorithm of R135 writes every entry exactly once and builds
a well-formed DecodeTable. -/
def Obligations.BuiltDecodeTableIsWellFormed : Prop :=
  ∀ enc : DataWord → Redundancy, Linear enc → Distance7 enc →
    (∀ x : Syndrome, (errorPatterns.filter fun e => synd enc e = x).length = 1) ∧
    ∃ dec : Syndrome → Mask, (∀ x : Syndrome, buildDec enc x = some (dec x)) ∧
      Sys2Proof.Machine.TablesWF enc dec

/-! ## Stream sequencer -/

/-- R143, R166: the launches. The length is decided before the call's own use of its buffers. A right length starts the
run at `k = 0`, `count = 0`; a wrong length faults with its code and leaves the output buffer. From a launch on, `k` only
grows and stays within `0 .. n`. A faulted launch takes no block step: what follows it is nothing or the next operation,
on the buffers presented with that. Two launches are left to
`Obligations.SharedBufferLaunchIsRefused`: one on a buffer that another call appends to, and one of a right length whose
call would share an input (log entry 8). -/
def Obligations.LaunchDecidesTheLength : Prop :=
  (∀ s : State, s.buffers.namesAppended s.others = false →
    (s.buffers.input.length % 3 ≠ 0 →
      exec .senc s = .next { s with stream := .faulted (.sencLen s.buffers.input.length) }) ∧
    (s.buffers.input.length % 6 ≠ 0 →
      exec .sdec s = .next { s with stream := .faulted (.sdecLen s.buffers.input.length) }) ∧
    (s.buffers.sharesInput s.others = false →
      (s.buffers.input.length % 3 = 0 → exec .senc s = .next { s with stream := .running .senc 0 0 }) ∧
      (s.buffers.input.length % 6 = 0 → exec .sdec s = .next { s with stream := .running .sdec 0 0 }))) ∧
  (∀ (s t : State) (op : StreamOp) (k count : Nat), s.stream = .running op k count → step s = .next t →
    ∃ k' count' : Nat, k ≤ k' ∧ k' ≤ op.blocks s.buffers.input.length ∧
      (t.stream = .running op k' count' ∨ t.stream = .done op k' count')) ∧
  (∀ (s t : State) (v : Violation), s.stream = .faulted v → step s = .next t →
    (t.stream = .idle ∨ (∃ v' : Violation, t.stream = .faulted v') ∨ ∃ op : StreamOp, t.stream = .running op 0 0) ∧
    (t.buffers = Buffers.absent ∨
      ∃ (p : Presented) (rest : List Presented), s.commands = p :: rest ∧ t.buffers = p.buffers))

/-- R162: a faulted stream call appends no byte, returns neither a buffer nor a count, and ends Faulted with its code
and the recorded length of R160. -/
def Obligations.FaultedCallReturnsNothing : Prop :=
  ∀ s : State, s.buffers.namesAppended s.others = false →
    (s.buffers.input.length % 3 ≠ 0 → ∃ (t : State) (v : Violation), exec .senc s = .next t ∧
      t.stream = .faulted v ∧ v.code = 1 ∧ v.recorded = s.buffers.input.length ∧
      t.buffers.output = s.buffers.output ∧ t.streamResult = none) ∧
    (s.buffers.input.length % 6 ≠ 0 → ∃ (t : State) (v : Violation), exec .sdec s = .next t ∧
      t.stream = .faulted v ∧ v.code = 2 ∧ v.recorded = s.buffers.input.length ∧
      t.buffers.output = s.buffers.output ∧ t.streamResult = none)

/-- R51, R166, R187: a launch is refused exactly when its output or its input is a buffer that a call on another instance
appends to, or when it has a right length and its output or its input is a buffer that a call on another instance reads,
or it has blocks and would append them to its own input (log entry 8). -/
def Obligations.SharedBufferLaunchIsRefused : Prop :=
  ∀ s : State,
    let b := s.buffers
    let named : Prop := ∃ c ∈ s.others, c.outputName = b.outputName ∨ c.outputName = b.inputName
    let shared : Prop := (∃ c ∈ s.others, c.inputName = b.outputName ∨ c.inputName = b.inputName) ∨
      (b.input ≠ [] ∧ b.inputName = b.outputName)
    (named ∨ (b.input.length % 3 = 0 ∧ shared) →
      exec .senc s = .refused (.sharedBuffer b.inputName b.outputName)) ∧
    (¬ (named ∨ (b.input.length % 3 = 0 ∧ shared)) → ∃ t : State, exec .senc s = .next t) ∧
    (named ∨ (b.input.length % 6 = 0 ∧ shared) →
      exec .sdec s = .refused (.sharedBuffer b.inputName b.outputName)) ∧
    (¬ (named ∨ (b.input.length % 6 = 0 ∧ shared)) → ∃ t : State, exec .sdec s = .next t)

/-- R144: the SENC block step, for every block before the last one is done. -/
def Obligations.SencBlockStep : Prop :=
  ∀ (s : State) (k count : Nat), s.stream = .running .senc k count → k < s.buffers.input.length / 3 →
    ∃ b0 b1 b2 : Byte, (s.buffers.input.drop (3 * k)).take 3 = [b0, b1, b2] ∧
      step s = .next { s with
        res := none
        buffers.output := s.buffers.output ++ codeBytes (enc24 s.enc ⟨b0, b1, b2⟩)
        stream := .running .senc (k + 1) count }

/-- R145: the SDEC block step, for every block before the last one is done, whatever the received bytes are. -/
def Obligations.SdecBlockStep : Prop :=
  ∀ (s : State) (k count : Nat), s.stream = .running .sdec k count → k < s.buffers.input.length / 6 →
    ∃ r0 r1 r2 r3 r4 r5 : Byte, (s.buffers.input.drop (6 * k)).take 6 = [r0, r1, r2, r3, r4, r5] ∧
      step s = .next { s with
        res := none
        buffers.output := s.buffers.output ++ dataBytes (dec48 s.enc s.dec ⟨r0, r1, r2, r3, r4, r5⟩).1
        stream := .running .sdec (k + 1) (count + (dec48 s.enc s.dec ⟨r0, r1, r2, r3, r4, r5⟩).2.toNat) }

/-- R146: the end of a run. At `k = n` the step is Done and returns the results; a Faulted run returns nothing; and a
launch that does not fault is Done after exactly `n + 1` steps. -/
def Obligations.RunEnds : Prop :=
  (∀ (s : State) (op : StreamOp) (k count : Nat), s.stream = .running op k count →
    k = op.blocks s.buffers.input.length → ∃ t : State, step s = .next t ∧
      t = { s with res := none, stream := .done op k count } ∧
      t.streamResult = some (match op with
        | .senc => .encoded s.buffers.output
        | .sdec => .decoded count s.buffers.output)) ∧
  (∀ (s : State) (v : Violation), s.stream = .faulted v → s.streamResult = none) ∧
  (∀ (s : State) (op : StreamOp), s.stream = .running op 0 0 →
    ∃ (t : State) (count : Nat),
      runSteps (op.blocks s.buffers.input.length + 1) s = .next t ∧
      t.stream = .done op (op.blocks s.buffers.input.length) count)

/-- R140: SENC, its encoding and its whole-call function, block by block. -/
def Obligations.SencWholeCall : Prop :=
  SpelledBy .senc 6#3 (fun p => p = 0#48) ∧
  ∀ (enc : DataWord → Redundancy) (input output : List Byte),
    (input.length % 3 ≠ 0 → sencCall enc input output = .error (.sencLen input.length)) ∧
    (input.length % 3 = 0 → sencCall enc input output = .ok (output ++
      (List.range (input.length / 3)).flatMap fun k =>
        codeBytes (enc24 enc ⟨input.getD (3 * k) 0, input.getD (3 * k + 1) 0, input.getD (3 * k + 2) 0⟩)))

/-- R142: SDEC, its encoding and its whole-call function, block by block; under well-formed tables its count reaches 2
a block, that is `len(in)/3`, for every number of blocks. -/
def Obligations.SdecWholeCall : Prop :=
  SpelledBy .sdec 7#3 (fun p => p = 0#48) ∧
  ∀ (enc : DataWord → Redundancy) (dec : Syndrome → Mask) (input output : List Byte),
    let block : Nat → DataBlock × BitVec 2 := fun k =>
      dec48 enc dec ⟨input.getD (6 * k) 0, input.getD (6 * k + 1) 0, input.getD (6 * k + 2) 0,
        input.getD (6 * k + 3) 0, input.getD (6 * k + 4) 0, input.getD (6 * k + 5) 0⟩
    (input.length % 6 ≠ 0 → sdecCall enc dec input output = .error (.sdecLen input.length)) ∧
    (input.length % 6 = 0 → sdecCall enc dec input output =
      .ok (((List.range (input.length / 6)).map fun k => (block k).2.toNat).sum,
        output ++ (List.range (input.length / 6)).flatMap fun k => dataBytes (block k).1) ∧
      (output ++ (List.range (input.length / 6)).flatMap fun k => dataBytes (block k).1).length =
        output.length + input.length / 2) ∧
    (Sys2Proof.Machine.TablesWF enc dec → ∀ n : Nat, ∃ (x out : List Byte),
      x.length = 6 * n ∧ sdecCall enc dec x output = .ok (x.length / 3, out))

/-- R147: the small-step machine, run to its end, gives what the whole calls give on the buffers presented with the
command, and is Faulted exactly when they raise. Only a launch that does not fault needs the host's second duty. -/
def Obligations.SmallStepsEqualWholeCalls : Prop :=
  ∀ (s : State) (c : CmdWord) (b : Buffers) (rest : List Presented),
    s.busy = false → s.commands = ⟨c, b⟩ :: rest → b.namesAppended s.others = false →
    (decode c = .ok .senc →
      match sencCall s.enc b.input b.output with
      | .ok out => b.sharesInput s.others = false →
          runSteps (b.input.length / 3 + 2) s =
            .next { s with commands := rest, res := none, buffers := { b with output := out },
                           stream := .done .senc (b.input.length / 3) 0 }
      | .error v => step s =
          .next { s with commands := rest, res := none, buffers := b, stream := .faulted v }) ∧
    (decode c = .ok .sdec →
      match sdecCall s.enc s.dec b.input b.output with
      | .ok (count, out) => b.sharesInput s.others = false →
          runSteps (b.input.length / 6 + 2) s =
            .next { s with commands := rest, res := none, buffers := { b with output := out },
                           stream := .done .sdec (b.input.length / 6) count }
      | .error v => step s =
          .next { s with commands := rest, res := none, buffers := b, stream := .faulted v })

/-- R141: SENC appends exactly `2 * len(in)` bytes, block `k` at offset `len(out) + 6k`. -/
def Obligations.SencBlocksLandInOrder : Prop :=
  ∀ (enc : DataWord → Redundancy) (input output out : List Byte), sencCall enc input output = .ok out →
    out.length = output.length + 2 * input.length ∧
    ∀ k : Nat, k < input.length / 3 → ∃ b0 b1 b2 : Byte,
      (input.drop (3 * k)).take 3 = [b0, b1, b2] ∧
      (out.drop (output.length + 6 * k)).take 6 = codeBytes (enc24 enc ⟨b0, b1, b2⟩)

/-- R149: both stream operations keep the bytes the output buffer held, and extend it by the stated length. -/
def Obligations.ExistingOutputIsKept : Prop :=
  (∀ (enc : DataWord → Redundancy) (input output out : List Byte), sencCall enc input output = .ok out →
    out.take output.length = output ∧ out.length = output.length + 2 * input.length) ∧
  (∀ (enc : DataWord → Redundancy) (dec : Syndrome → Mask) (input output out : List Byte) (count : Nat),
    sdecCall enc dec input output = .ok (count, out) →
      out.take output.length = output ∧ out.length = output.length + input.length / 2)

/-- R148: an empty input is valid, appends nothing and counts 0, also where one buffer is passed as both. -/
def Obligations.EmptyInputIsValid : Prop :=
  ∀ (s : State) (c : CmdWord) (b : Buffers) (rest : List Presented),
    s.busy = false → s.commands = ⟨c, b⟩ :: rest → b.namesAppended s.others = false → b.namesRead s.others = false →
    b.input = [] →
    (decode c = .ok .senc → ∃ t : State, runSteps 2 s = .next t ∧
      t.streamResult = some (.encoded b.output)) ∧
    (decode c = .ok .sdec → ∃ t : State, runSteps 2 s = .next t ∧
      t.streamResult = some (.decoded 0 b.output))

/-- R150: under well-formed tables an error-free round trip returns the input with count 0. -/
def Obligations.RoundTripReturnsTheInput : Prop :=
  ∀ (enc : DataWord → Redundancy) (dec : Syndrome → Mask), Sys2Proof.Machine.TablesWF enc dec →
    ∀ x : List Byte, x.length % 3 = 0 → ∃ y : List Byte,
      sencCall enc x [] = .ok y ∧ sdecCall enc dec y [] = .ok (0, x)

/-- R151: the count of SDEC is at most 2 a block, and is the number of codewords with a nonzero mask; under well-formed
tables, with a nonzero syndrome. -/
def Obligations.CountIsTheNumberOfCorrectedWords : Prop :=
  ∀ (enc : DataWord → Redundancy) (dec : Syndrome → Mask) (input output out : List Byte) (count : Nat),
    sdecCall enc dec input output = .ok (count, out) →
      count ≤ 2 * (input.length / 6) ∧
      count = (fragmentsOf input).countP (fun f => decide (correctionMask enc dec f ≠ 0#23)) ∧
      (Sys2Proof.Machine.TablesWF enc dec →
        count = (fragmentsOf input).countP (fun f => decide (syndrome enc f ≠ 0#11)))

/-- R152: under well-formed tables, SDEC of an encoded block with one bit flipped returns the original bytes, with count
1 at the 46 meaningful positions and 0 at positions 23 and 47; and up to 3 flipped meaningful bits in each half always
decode to the original data. -/
def Obligations.FlippedBlocksDecode : Prop :=
  ∀ (enc : DataWord → Redundancy) (dec : Syndrome → Mask), Sys2Proof.Machine.TablesWF enc dec →
    (∀ (b : DataBlock) (i : Nat), i < 48 →
      sdecCall enc dec (codeBytes (flipBlock (enc24 enc b) i)) [] =
        .ok (if i = 23 ∨ i = 47 then 0 else 1, dataBytes b)) ∧
    (∀ (b : DataBlock) (e0 e1 : Mask),
      let half0 := encw enc (split3 b).w0
      let half1 := encw enc (split3 b).w1
      let received := dec48 enc dec (joinFragments (addError e0 half0) (addError e1 half1))
      (popcount e0 ≤ 3 → (split3 received.1).w0 = (split3 b).w0) ∧
      (popcount e1 ≤ 3 → (split3 received.1).w1 = (split3 b).w1))

/-- R79: RTRIP is ENC24 and then DEC48 on its six result bytes; under well-formed tables it returns its operands with
count 0 (R150). -/
def Obligations.RtripExpandsAndReturns : Prop :=
  ∀ (s : State) (b : DataBlock), ∃ w : Response,
    exec (rtripFirst b) s = .next { s with res := some w } ∧
    exec (rtripSecond w) { s with res := some w } =
      .next { s with res := some (blockDecodedResponse (rtrip s.enc s.dec b).1 (rtrip s.enc s.dec b).2) } ∧
    (s.TablesWF → rtrip s.enc s.dec b = (b, 0#2))

/-! ## Invariants -/

/-- R27, R30, R182, R183: at reset no stream call runs, no response and no buffer is held and no command is presented. The
names that stand where no buffer is held are the model's own choice (log entry 16). -/
def Obligations.ResetState : Prop :=
  State.reset.stream = .idle ∧ State.reset.res = none ∧ State.reset.commands = [] ∧
  State.reset.buffers = Buffers.absent ∧ State.reset.busy = false ∧ State.reset.Inv ∧ State.reset.Ready

/-- R51, R143 to R146, R151, R160, R187: every step keeps the invariant of a run. Its first clause, that the running
call's buffers are not shared, is the model's reading of R51 and R187, and stays true in a run because no step changes what
the other instances' calls use (log entry 8). -/
def Obligations.StepKeepsInvariant : Prop :=
  ∀ s t : State, s.Inv → step s = .next t → t.Inv

/-- R112, R131, R160, R164: from a state that meets the invariant, with only legal commands presented that keep the host's
duties, a step answers a next state, and that state is ready again: the machine never stops. A precondition violation of
R160 can occur, and its state is a next state too (log entry 7), as is that of an idle step (log entry 3). Which buffers
keep the duties is the model's reading of R51 and R187 (log entry 8). -/
def Obligations.ReadyMachineNeverStops : Prop :=
  ∀ s : State, s.Ready → ∃ t : State, step s = .next t ∧ t.Ready

/-- R46, R49, R140, R142: a launch starts a run whose output is its output buffer and the blocks done so far, and every
step of a running call keeps this. -/
def Obligations.StepKeepsProgress : Prop :=
  (∀ s t : State, exec .senc s = .next t ∨ exec .sdec s = .next t → t.Progress s.buffers.output) ∧
  (∀ (s t : State) (out0 : List Byte), s.busy = true → s.Progress out0 → step s = .next t → t.Progress out0)

/-- R27, R28, R168: the buffers, the run and the response of an operation are not retained: with no stream call running, a
step is the same whatever the operation before left in them. -/
def Obligations.BuffersAreNotRetained : Prop :=
  ∀ (s : State) (b : Buffers) (r : Option Response) (st : Stream), s.busy = false →
    { s with stream := st }.busy = false →
      step { s with buffers := b, res := r, stream := st } = step s
end

