-- ==== Sys2Proof/Laws/Bits.lean ====
section
/-! SUPPORT. The laws of concatenation and of the Hamming weight. -/

namespace Sys2Proof.Bits

@[simp] theorem getLsbD_cat {n m k : Nat} (hi : BitVec n) (lo : BitVec m) (h : n + m = k) (i : Nat) :
    (cat k hi lo h).getLsbD i = bif decide (i < m) then lo.getLsbD i else hi.getLsbD (i - m) := by
  subst h
  simp [cat, BitVec.getLsbD_append]

@[simp] theorem getElem_cat {n m k : Nat} (hi : BitVec n) (lo : BitVec m) (h : n + m = k) (i : Nat)
    (hik : i < k) :
    (cat k hi lo h)[i] = bif decide (i < m) then lo.getLsbD i else hi.getLsbD (i - m) := by
  rw [← BitVec.getLsbD_eq_getElem, getLsbD_cat]

theorem cat_xor {n m k : Nat} (a b : BitVec n) (c d : BitVec m) (h : n + m = k) :
    cat k a c h ^^^ cat k b d h = cat k (a ^^^ b) (c ^^^ d) h := by
  apply BitVec.eq_of_getLsbD_eq
  intro i _
  by_cases hi : i < m <;> simp [hi]

theorem getLsbD_flipBit {n : Nat} (v : BitVec n) (i j : Nat) :
    (flipBit v i).getLsbD j = (v.getLsbD j ^^ (decide (j < n) && decide (i = j))) := by
  simp [flipBit, BitVec.getLsbD_xor, BitVec.getLsbD_twoPow]
  by_cases h : j < n <;> by_cases h' : i = j <;> simp_all

theorem popcount_eq_zero_iff {n : Nat} (v : BitVec n) : popcount v = 0 ↔ v = 0#n := by
  simp only [popcount, List.countP_eq_zero, List.mem_range]
  constructor
  · intro h
    apply BitVec.eq_of_getLsbD_eq
    intro i hi
    simpa using h i hi
  · rintro rfl i _
    simp

/-- The weight of a XOR is at most the sum of the weights: a flipped bit is flipped by one of the two. -/
theorem popcount_xor_le {n : Nat} (a b : BitVec n) : popcount (a ^^^ b) ≤ popcount a + popcount b := by
  simp only [popcount, BitVec.getLsbD_xor]
  induction List.range n with
  | nil => simp
  | cons i is ih =>
    simp only [List.countP_cons]
    cases a.getLsbD i <;> cases b.getLsbD i <;> simp <;> omega

end Sys2Proof.Bits
end

