-- ==== Sys2Proof/Laws/Flags.lean ====
section
/-! SUPPORT. What the flags are, in the terms a proof uses. -/

namespace Sys2Proof.Machine

theorem correctionFlag_eq_true {m : Mask} : correctionFlag m = true ↔ m ≠ 0#23 := by
  simp [correctionFlag]

theorem correctionFlag_eq_false {m : Mask} : correctionFlag m = false ↔ m = 0#23 := by
  simp [correctionFlag]

/-- The count of a block is the number of its flags that are set: 0, 1 or 2. -/
theorem blockCount_toNat (flag0 flag1 : Bool) :
    (blockCount flag0 flag1).toNat = flag0.toNat + flag1.toNat := by
  cases flag0 <;> cases flag1 <;> decide

end Sys2Proof.Machine
end

