-- ==== Sys2Proof/Laws/State.lean ====
section
/-! SUPPORT. One lemma for each field of State and each named update, and what the table reads see of an update. -/

namespace Sys2Proof.Machine

@[simp] theorem State.append_encTable (s : State) (ys : List Byte) : (s.append ys).encTable = s.encTable := rfl
@[simp] theorem State.append_decTable (s : State) (ys : List Byte) : (s.append ys).decTable = s.decTable := rfl
@[simp] theorem State.append_commands (s : State) (ys : List Byte) : (s.append ys).commands = s.commands := rfl
@[simp] theorem State.append_res (s : State) (ys : List Byte) : (s.append ys).res = s.res := rfl
@[simp] theorem State.append_buffers (s : State) (ys : List Byte) :
    (s.append ys).buffers = { s.buffers with output := s.buffers.output ++ ys } := rfl
@[simp] theorem State.append_others (s : State) (ys : List Byte) : (s.append ys).others = s.others := rfl
@[simp] theorem State.append_stream (s : State) (ys : List Byte) : (s.append ys).stream = s.stream := rfl
@[simp] theorem State.append_enc (s : State) (ys : List Byte) : (s.append ys).enc = s.enc := rfl
@[simp] theorem State.append_dec (s : State) (ys : List Byte) : (s.append ys).dec = s.dec := rfl

@[simp] theorem State.retire_encTable (s : State) : (s.retire).encTable = s.encTable := rfl
@[simp] theorem State.retire_decTable (s : State) : (s.retire).decTable = s.decTable := rfl
@[simp] theorem State.retire_commands (s : State) : (s.retire).commands = s.commands := rfl
@[simp] theorem State.retire_res (s : State) : (s.retire).res = none := rfl
@[simp] theorem State.retire_buffers (s : State) : (s.retire).buffers = Buffers.absent := rfl
@[simp] theorem State.retire_others (s : State) : (s.retire).others = s.others := rfl
@[simp] theorem State.retire_stream (s : State) : (s.retire).stream = .idle := rfl
@[simp] theorem State.retire_enc (s : State) : (s.retire).enc = s.enc := rfl
@[simp] theorem State.retire_dec (s : State) : (s.retire).dec = s.dec := rfl

@[simp] theorem State.present_encTable (s : State) (p : Presented) : (s.present p).encTable = s.encTable := rfl
@[simp] theorem State.present_decTable (s : State) (p : Presented) : (s.present p).decTable = s.decTable := rfl
@[simp] theorem State.present_commands (s : State) (p : Presented) : (s.present p).commands = s.commands ++ [p] := rfl
@[simp] theorem State.present_res (s : State) (p : Presented) : (s.present p).res = s.res := rfl
@[simp] theorem State.present_buffers (s : State) (p : Presented) : (s.present p).buffers = s.buffers := rfl
@[simp] theorem State.present_others (s : State) (p : Presented) : (s.present p).others = s.others := rfl
@[simp] theorem State.present_stream (s : State) (p : Presented) : (s.present p).stream = s.stream := rfl
@[simp] theorem State.present_enc (s : State) (p : Presented) : (s.present p).enc = s.enc := rfl
@[simp] theorem State.present_dec (s : State) (p : Presented) : (s.present p).dec = s.dec := rfl

@[simp] theorem State.withFetchWord_encTable (s : State) (nbits w : Nat) :
    (s.withFetchWord nbits w).encTable = s.encTable := rfl
@[simp] theorem State.withFetchWord_decTable (s : State) (nbits w : Nat) :
    (s.withFetchWord nbits w).decTable = s.decTable := rfl
@[simp] theorem State.withFetchWord_commands (s : State) (nbits w : Nat) :
    (s.withFetchWord nbits w).commands = ⟨BitVec.ofNat 64 (w % 2 ^ nbits), s.buffers⟩ :: s.commands := rfl
@[simp] theorem State.withFetchWord_res (s : State) (nbits w : Nat) : (s.withFetchWord nbits w).res = s.res := rfl
@[simp] theorem State.withFetchWord_buffers (s : State) (nbits w : Nat) :
    (s.withFetchWord nbits w).buffers = s.buffers := rfl
@[simp] theorem State.withFetchWord_others (s : State) (nbits w : Nat) :
    (s.withFetchWord nbits w).others = s.others := rfl
@[simp] theorem State.withFetchWord_enc (s : State) (nbits w : Nat) : (s.withFetchWord nbits w).enc = s.enc := rfl
@[simp] theorem State.withFetchWord_dec (s : State) (nbits w : Nat) : (s.withFetchWord nbits w).dec = s.dec := rfl
/-- A state with these tables reads them as functions. -/
theorem State.enc_ofFn (s : State) (f : DataWord → Redundancy)
    (h : s.encTable = Vector.ofFn fun i => f (BitVec.ofNat 12 i.val)) : s.enc = f := by
  funext d
  simp [State.enc, h]

/-- A state with these tables reads them as functions. -/
theorem State.dec_ofFn (s : State) (f : Syndrome → Mask)
    (h : s.decTable = Vector.ofFn fun i => f (BitVec.ofNat 11 i.val)) : s.dec = f := by
  funext d
  simp [State.dec, h]

/-- Table reads depend on the table alone. -/
theorem State.enc_congr {s t : State} (h : t.encTable = s.encTable) : t.enc = s.enc := by
  funext d
  simp only [State.enc, h]

theorem State.dec_congr {s t : State} (h : t.decTable = s.decTable) : t.dec = s.dec := by
  funext d
  simp only [State.dec, h]

end Sys2Proof.Machine
end

