-- ==== Sys2Proof/Laws/Ops.lean ====
section
/-! SUPPORT. For each shared operation, once, everything it can do; and what one step can do. -/

namespace Sys2Proof.Machine

theorem respond_next {w : Response} {s t : State} (h : respond w s = .next t) : t = { s with res := some w } := by
  cases h
  rfl

theorem takeFault_next {v : Violation} {s t : State} (h : takeFault v s = .next t) :
    t = { s with stream := .faulted v } := by
  cases h
  rfl

/-- A read inside the buffer gives its `n` bytes. -/
theorem memRead_of_le {buf : List Byte} {off n : Nat} (h : off + n ≤ buf.length) :
    memRead buf off n = some ((buf.drop off).take n) := if_pos h

/-- A read gives bytes exactly when all of them exist (20_memory.md R40). -/
theorem memRead_eq_some {buf l : List Byte} {off n : Nat} :
    memRead buf off n = some l ↔ off + n ≤ buf.length ∧ (buf.drop off).take n = l := by
  unfold memRead
  split <;> simp_all

/-- A list of three. -/
theorem exists_three {l : List Byte} (h : l.length = 3) : ∃ a b c, l = [a, b, c] := by
  match l, h with
  | [a, b, c], _ => exact ⟨a, b, c, rfl⟩

/-- A list of six. -/
theorem exists_six {l : List Byte} (h : l.length = 6) : ∃ a b c d e f, l = [a, b, c, d, e, f] := by
  match l, h with
  | [a, b, c, d, e, f], _ => exact ⟨a, b, c, d, e, f, rfl⟩

/-- The block at `k` when it is inside the buffer. -/
theorem memRead_three {buf : List Byte} {off : Nat} (h : off + 3 ≤ buf.length) :
    ∃ a b c, (buf.drop off).take 3 = [a, b, c] ∧ memRead buf off 3 = some [a, b, c] := by
  obtain ⟨a, b, c, hl⟩ := exists_three (l := (buf.drop off).take 3) (by simp; omega)
  exact ⟨a, b, c, hl, by rw [memRead_of_le h, hl]⟩

theorem memRead_six {buf : List Byte} {off : Nat} (h : off + 6 ≤ buf.length) :
    ∃ a b c d e f, (buf.drop off).take 6 = [a, b, c, d, e, f] ∧
      memRead buf off 6 = some [a, b, c, d, e, f] := by
  obtain ⟨a, b, c, d, e, f, hl⟩ := exists_six (l := (buf.drop off).take 6) (by simp; omega)
  exact ⟨a, b, c, d, e, f, hl, by rw [memRead_of_le h, hl]⟩

/-- Everything a launch can answer. -/
theorem launch_cases (op : StreamOp) (s : State) :
    (s.buffers.namesAppended s.others = true ∧
      launch op s = .refused (.sharedBuffer s.buffers.inputName s.buffers.outputName)) ∨
    (s.buffers.namesAppended s.others = false ∧ op.lengthOk s.buffers.input.length = true ∧
      s.buffers.sharesInput s.others = true ∧
      launch op s = .refused (.sharedBuffer s.buffers.inputName s.buffers.outputName)) ∨
    (s.buffers.Exclusive s.others ∧ op.lengthOk s.buffers.input.length = true ∧
      launch op s = .next { s with stream := .running op 0 0 }) ∨
    (s.buffers.namesAppended s.others = false ∧ op.lengthOk s.buffers.input.length = false ∧
      launch op s = .next { s with stream := .faulted (op.violation s.buffers.input.length) }) := by
  unfold launch takeFault Buffers.Exclusive
  cases s.buffers.namesAppended s.others <;> cases op.lengthOk s.buffers.input.length <;>
    cases s.buffers.sharesInput s.others <;> simp

/-- A launch that answers a next state writes the run only. -/
theorem launch_next {op : StreamOp} {s t : State} (h : launch op s = .next t) :
    t = { s with stream := t.stream } := by
  rcases launch_cases op s with ⟨-, he⟩ | ⟨-, -, -, he⟩ | ⟨-, -, he⟩ | ⟨-, -, he⟩ <;> rw [he] at h <;> cases h <;> rfl

/-- A call without a block does not append to its own input (R148): it shares what other calls read. -/
theorem sharesInput_of_nil {b : Buffers} (h : b.input = []) (others : List Claim) :
    b.sharesInput others = b.namesRead others := by
  simp [Buffers.sharesInput, Buffers.appendsToItself, h]

/-- Where no other call runs, the only shared input is the call's own. -/
@[simp] theorem sharesInput_no_others (b : Buffers) : b.sharesInput [] = b.appendsToItself := by
  simp [Buffers.sharesInput, Buffers.namesRead]

/-- The SENC block inside the input. -/
theorem sencBlock_eq {s : State} {k count : Nat} (h : k < StreamOp.senc.blocks s.buffers.input.length) :
    ∃ b0 b1 b2, (s.buffers.input.drop (3 * k)).take 3 = [b0, b1, b2] ∧
      sencBlock k count s = .next { s with
        buffers.output := s.buffers.output ++ codeBytes (enc24 s.enc ⟨b0, b1, b2⟩)
        stream := .running .senc (k + 1) count } := by
  have hk : 3 * k + 3 ≤ s.buffers.input.length := by
    simp only [StreamOp.blocks, StreamOp.blockBytes] at h
    omega
  obtain ⟨b0, b1, b2, hl, hm⟩ := memRead_three hk
  exact ⟨b0, b1, b2, hl, by rw [sencBlock, hm]; rfl⟩

/-- The SDEC block inside the input. -/
theorem sdecBlock_eq {s : State} {k count : Nat} (h : k < StreamOp.sdec.blocks s.buffers.input.length) :
    ∃ r0 r1 r2 r3 r4 r5, (s.buffers.input.drop (6 * k)).take 6 = [r0, r1, r2, r3, r4, r5] ∧
      sdecBlock k count s = .next { s with
        buffers.output := s.buffers.output ++ dataBytes (dec48 s.enc s.dec ⟨r0, r1, r2, r3, r4, r5⟩).1
        stream := .running .sdec (k + 1)
          (count + (dec48 s.enc s.dec ⟨r0, r1, r2, r3, r4, r5⟩).2.toNat) } := by
  have hk : 6 * k + 6 ≤ s.buffers.input.length := by
    simp only [StreamOp.blocks, StreamOp.blockBytes] at h
    omega
  obtain ⟨r0, r1, r2, r3, r4, r5, hl, hm⟩ := memRead_six hk
  exact ⟨r0, r1, r2, r3, r4, r5, hl, by rw [sdecBlock, hm]; rfl⟩

/-- The end of a run, at `k = n`. -/
theorem sequencerStep_end {op : StreamOp} {k count : Nat} {s : State} (h : k = op.blocks s.buffers.input.length) :
    sequencerStep op k count s = .next { s with stream := .done op k count } := by
  unfold sequencerStep
  rw [if_neg (by omega), if_pos h]

/-- Everything a step of a running sequencer can do when it answers a next state. -/
theorem sequencerStep_cases {op : StreamOp} {k count : Nat} {s t : State} (h : sequencerStep op k count s = .next t) :
    (k < op.blocks s.buffers.input.length ∧ ∃ ys cnt,
      t = { s with buffers.output := s.buffers.output ++ ys, stream := .running op (k + 1) (count + cnt) } ∧
      cnt ≤ 2 ∧ (op = .senc → cnt = 0)) ∨
    (k = op.blocks s.buffers.input.length ∧ t = { s with stream := .done op k count }) := by
  unfold sequencerStep at h
  by_cases hk : k < op.blocks s.buffers.input.length
  · rw [if_pos hk] at h
    refine .inl ⟨hk, ?_⟩
    cases op with
    | senc =>
      obtain ⟨b0, b1, b2, -, he⟩ := sencBlock_eq (count := count) hk
      simp only [he] at h
      cases h
      exact ⟨_, 0, rfl, by omega, fun _ => rfl⟩
    | sdec =>
      obtain ⟨r0, r1, r2, r3, r4, r5, -, he⟩ := sdecBlock_eq (count := count) hk
      simp only [he] at h
      cases h
      refine ⟨_, _, rfl, ?_, by simp⟩
      simp only [dec48, blockCount]
      cases (decw s.enc s.dec (firstFragment ⟨r0, r1, r2, r3, r4, r5⟩)).flag <;>
        cases (decw s.enc s.dec (secondFragment ⟨r0, r1, r2, r3, r4, r5⟩)).flag <;> decide
  · rw [if_neg hk] at h
    split at h
    · cases h
      exact .inr ⟨‹_›, rfl⟩
    · cases h

/-- Everything an operation can do: a block operation returns a response and a stream operation launches. -/
theorem exec_cases (i : Instr) (s : State) :
    (i ≠ .senc ∧ i ≠ .sdec ∧ ∃ w, exec i s = .next { s with res := some w }) ∨
    (i = .senc ∧ exec i s = launch .senc s) ∨ (i = .sdec ∧ exec i s = launch .sdec s) := by
  cases i with
  | senc => exact .inr (.inl ⟨rfl, rfl⟩)
  | sdec => exact .inr (.inr ⟨rfl, rfl⟩)
  | split3 => exact .inl ⟨by simp, by simp, _, rfl⟩
  | join3 => exact .inl ⟨by simp, by simp, _, rfl⟩
  | encw => exact .inl ⟨by simp, by simp, _, rfl⟩
  | decw => exact .inl ⟨by simp, by simp, _, rfl⟩
  | enc24 => exact .inl ⟨by simp, by simp, _, rfl⟩
  | dec48 => exact .inl ⟨by simp, by simp, _, rfl⟩

/-- An instance is busy exactly when a run is `running`. -/
theorem busy_iff {s : State} : s.busy = true ↔ ∃ op k count, s.stream = .running op k count := by
  unfold State.busy
  split <;> simp_all

/-- A step of a busy instance is a step of its sequencer. -/
theorem step_running {s : State} {op : StreamOp} {k count : Nat} (h : s.stream = .running op k count) :
    step s = sequencerStep op k count { s with res := none } := by
  simp only [step, h]

/-- A step of an instance that is not busy accepts a command, when one is presented. -/
theorem step_not_busy {s : State} (h : s.busy = false) :
    step s = match s.commands with
      | [] => .next s.retire
      | p :: rest => match decode p.word with
        | .ok i => exec i { s.retire with commands := rest, buffers := p.buffers }
        | .error (.illegalCommand w) => .refused (.illegalCommand w) := by
  obtain ⟨e, d, cs, r, bs, os, st⟩ := s
  cases st with
  | running op k count => cases h
  | idle => cases cs <;> rfl
  | done op k count => cases cs <;> rfl
  | faulted v => cases cs <;> rfl

/-- Everything a step can do when it answers a next state: a block or the end of a running call, nothing, or one
operation. -/
theorem step_cases {s t : State} (h : step s = .next t) :
    (∃ op k count, s.stream = .running op k count ∧
      sequencerStep op k count { s with res := none } = .next t) ∨
    (s.busy = false ∧ s.commands = [] ∧ t = s.retire) ∨
    (s.busy = false ∧ ∃ p rest i, s.commands = p :: rest ∧ decode p.word = .ok i ∧
      exec i { s.retire with commands := rest, buffers := p.buffers } = .next t) := by
  cases hb : s.busy with
  | true =>
    obtain ⟨op, k, count, hs⟩ := busy_iff.mp hb
    exact .inl ⟨op, k, count, hs, step_running hs ▸ h⟩
  | false =>
    right
    rw [step_not_busy hb] at h
    cases hc : s.commands with
    | nil =>
      simp only [hc] at h
      cases h
      exact .inl ⟨rfl, rfl, rfl⟩
    | cons p rest =>
      simp only [hc] at h
      cases hd : decode p.word with
      | ok i =>
        simp only [hd] at h
        exact .inr ⟨rfl, p, rest, i, rfl, hd, h⟩
      | error e =>
        cases e
        simp only [hd] at h
        cases h

theorem runSteps_succ (k : Nat) (s : State) :
    runSteps (k + 1) s = match step s with
      | .next t => runSteps k t
      | .fault r => .fault r
      | .refused r => .refused r := rfl

theorem core_run_next {M : Host.Core} {s t : M.State} (h : M.step s = .next t) (k : Nat) :
    M.run (k + 1) s = M.run k t := by
  simp only [Host.Core.run, h]

theorem core_run_fault {M : Host.Core} {s : M.State} {r : M.Fault} (h : M.step s = .fault r) (k : Nat) :
    M.run (k + 1) s = .fault r := by
  simp only [Host.Core.run, h]

theorem core_run_refused {M : Host.Core} {s : M.State} {r : M.Refusal} (h : M.step s = .refused r) (k : Nat) :
    M.run (k + 1) s = .refused r := by
  simp only [Host.Core.run, h]

/-- The model's own run is the host's run of its machine. -/
theorem runSteps_eq_core_run (k : Nat) (s : State) : runSteps k s = Host.Core.run Sys2Proof.core k s := by
  induction k generalizing s with
  | zero => rfl
  | succ k ih =>
    rw [runSteps_succ]
    cases h : step s with
    | next t => exact (ih t).trans (core_run_next (M := Sys2Proof.core) h k).symm
    | fault r => exact (core_run_fault (M := Sys2Proof.core) h k).symm
    | refused r => exact (core_run_refused (M := Sys2Proof.core) h k).symm

end Sys2Proof.Machine
end

