-- ==== Sys2Proof/Laws/PerInstr.lean ====
section
/-! SUPPORT. A family of statements made instruction by instruction, about an instruction's syntax and encoding. -/

namespace Sys2Proof.Laws.EncodedWord

/-- The word of an instruction holds its op number in `cmd[2:0]`, 0 in both reserved fields and its payload in
`cmd[55:8]` (30_encoding.md R70), and the instruction is well formed. -/
def Statement (i : Instr) : Prop :=
  CmdFields.op (encode i) = opNumber i ∧ CmdFields.rsv0Clear (encode i) = true ∧
    CmdFields.rsv1Clear (encode i) = true ∧ CmdFields.payload (encode i) = encodePayload i ∧
    i.wellFormed = true

/-- The fields of an encoded word, whatever the instruction. -/
theorem fields (i : Instr) :
    CmdFields.op (encode i) = opNumber i ∧ CmdFields.rsv0 (encode i) = 0#5 ∧
      CmdFields.rsv1 (encode i) = 0#8 ∧ CmdFields.payload (encode i) = encodePayload i := by
  refine ⟨?_, ?_, ?_, ?_⟩ <;> apply BitVec.eq_of_getLsbD_eq <;> intro j hj
  · simp [CmdFields.op, encode, hj, show j < 8 by omega]
  · simp [CmdFields.rsv0, encode, hj, show 3 + j < 8 by omega, show ¬ 3 + j < 3 by omega]
  · simp [CmdFields.rsv1, encode, hj, show ¬ 56 + j < 8 by omega, show ¬ 56 + j - 8 < 48 by omega]
  · simp [CmdFields.payload, encode, hj, show ¬ 8 + j < 8 by omega]

theorem of_wellFormed {i : Instr} (h : i.wellFormed = true) : Statement i := by
  obtain ⟨hop, h0, h1, hp⟩ := fields i
  exact ⟨hop, by simp [CmdFields.rsv0Clear, h0], by simp [CmdFields.rsv1Clear, h1], hp, h⟩

theorem split3 (b0 b1 b2 : Byte) : Statement (.split3 b0 b1 b2) := of_wellFormed rfl
theorem join3 (w0 w1 : DataWord) : Statement (.join3 w0 w1) := of_wellFormed rfl
theorem encw (d : DataWord) : Statement (.encw d) := of_wellFormed rfl
theorem decw (f0 f1 f2 : Byte) : Statement (.decw f0 f1 f2) := of_wellFormed rfl
theorem enc24 (b0 b1 b2 : Byte) : Statement (.enc24 b0 b1 b2) := of_wellFormed rfl
theorem dec48 (r0 r1 r2 r3 r4 r5 : Byte) : Statement (.dec48 r0 r1 r2 r3 r4 r5) := of_wellFormed rfl
theorem senc : Statement .senc := of_wellFormed rfl
theorem sdec : Statement .sdec := of_wellFormed rfl

end Sys2Proof.Laws.EncodedWord
end

