-- ==== Sys2Proof/Laws/Tables.lean ====
section
/-! SUPPORT. Laws of the tables: the halves of a combined value, which patterns the list of R135 holds, and that low
weight patterns are told apart by their syndromes (42_decoder.md R129). -/

namespace Sys2Proof.Machine

open Sys2Proof.Bits

@[simp] theorem maskData_combined (d : DataWord) (r : Redundancy) : maskData (combined d r) = d := by
  apply BitVec.eq_of_getLsbD_eq
  intro i hi
  simp [maskData, combined, hi]

@[simp] theorem maskRed_combined (d : DataWord) (r : Redundancy) : maskRed (combined d r) = r := by
  apply BitVec.eq_of_getLsbD_eq
  intro i hi
  simp [maskRed, combined, hi]

theorem combined_halves (w : Mask) : combined (maskData w) (maskRed w) = w := by
  apply BitVec.eq_of_getLsbD_eq
  intro i hi
  by_cases h : i < 11
  · simp [maskData, maskRed, combined, h]
  · simp [maskData, combined, h, show 11 + (i - 11) = i by omega, show i - 11 < 12 by omega]

theorem maskData_xor (a b : Mask) : maskData (a ^^^ b) = maskData a ^^^ maskData b := by
  apply BitVec.eq_of_getLsbD_eq
  intro i hi
  simp [maskData, hi]

theorem maskRed_xor (a b : Mask) : maskRed (a ^^^ b) = maskRed a ^^^ maskRed b := by
  apply BitVec.eq_of_getLsbD_eq
  intro i hi
  simp [maskRed, hi]

theorem combined_xor (a b : DataWord) (c d : Redundancy) :
    combined a c ^^^ combined b d = combined (a ^^^ b) (c ^^^ d) :=
  cat_xor a b c d rfl

/-- Under linearity the syndrome of a XOR is the XOR of the syndromes. -/
theorem Linear.synd_xor {enc : DataWord → Redundancy} (h : Linear enc) (a b : Mask) :
    synd enc (a ^^^ b) = synd enc a ^^^ synd enc b := by
  rw [synd, maskData_xor, maskRed_xor, h (maskData a) (maskData b)]
  simp only [synd]
  ac_rfl

/-- A pattern with syndrome 0 is the codeword of its data half. -/
theorem codeword_of_synd_zero {enc : DataWord → Redundancy} {e : Mask} (h : synd enc e = 0#11) :
    e = codeword enc (maskData e) := by
  have hr : enc (maskData e) = maskRed e := BitVec.xor_eq_zero_iff.mp h
  rw [codeword, hr, combined_halves]

/-- Under R129 (a) and (b), two patterns of weight at most 3 with one syndrome are one pattern: their XOR is a codeword
of weight at most 6. -/
theorem eq_of_synd_eq {enc : DataWord → Redundancy} (hl : Linear enc) (hd : Distance7 enc) {a b : Mask}
    (ha : popcount a ≤ 3) (hb : popcount b ≤ 3) (h : synd enc a = synd enc b) : a = b := by
  have hz : synd enc (a ^^^ b) = 0#11 := by rw [hl.synd_xor, h, BitVec.xor_self]
  have hc := codeword_of_synd_zero hz
  have hw := popcount_xor_le a b
  by_cases hd0 : maskData (a ^^^ b) = 0#12
  · have h0 : enc 0#12 = 0#11 := by
      have := hl 0#12 0#12
      rwa [BitVec.xor_self, BitVec.xor_self] at this
    have : a ^^^ b = 0#23 := by rw [hc, hd0, codeword, h0]; decide
    exact BitVec.xor_eq_zero_iff.mp this
  · have := hd _ hd0
    rw [← hc] at this
    omega

/-- What a DecodeTable well formed for `enc` holds at the syndrome of a low-weight pattern. -/
theorem TablesWF.dec_synd {enc : DataWord → Redundancy} {dec : Syndrome → Mask} (h : TablesWF enc dec) {e : Mask}
    (he : popcount e ≤ 3) : dec (synd enc e) = e :=
  ((h.leaders _ e).mp ⟨he, rfl⟩).symm

theorem TablesWF.dec_weight {enc : DataWord → Redundancy} {dec : Syndrome → Mask} (h : TablesWF enc dec)
    (s : Syndrome) : popcount (dec s) ≤ 3 :=
  ((h.leaders s (dec s)).mpr rfl).1

theorem TablesWF.synd_dec {enc : DataWord → Redundancy} {dec : Syndrome → Mask} (h : TablesWF enc dec)
    (s : Syndrome) : synd enc (dec s) = s :=
  ((h.leaders s (dec s)).mpr rfl).2

end Sys2Proof.Machine
end

