-- ==== Sys2Proof/Machine/RefTable.lean ====
section
/-! DEFINITION. The reference instance `REF_AE3` (92_eei_decisions.md D7; 95_test_vectors.md), used by test vectors and
by the witnesses of claims that take `TablesWF` as a premise. The machine does not use it. -/

namespace Sys2Proof.Machine

/-- The basis entries `ENC_TABLE[1 << i]` of REF_AE3, for i = 0 .. 11 (95_test_vectors.md). -/
def refBasis : List Redundancy :=
  [0x2E3#11, 0x5C6#11, 0x16F#11, 0x2DE#11, 0x5BC#11, 0x19B#11,
   0x336#11, 0x66C#11, 0x63B#11, 0x695#11, 0x7C9#11, 0x571#11]

/-- The XOR of the basis entries over the set bits of `d` from bit `i` up (R115). -/
def xorBasis (d : DataWord) : Nat → List Redundancy → Redundancy
  | _, [] => 0
  | i, r :: rest => (if d.getLsbD i then r else 0) ^^^ xorBasis d (i + 1) rest

/-- ENC_TABLE of REF_AE3, extended from its basis by linearity (R115). -/
def refEnc (d : DataWord) : Redundancy := xorBasis d 0 refBasis

/-- DEC_TABLE of REF_AE3, built as R135 says. -/
def refDec (s : Syndrome) : Mask := (buildDec refEnc s).getD 0

/-- The two tables of REF_AE3 as an instance holds them (R24, R25). -/
def refEncTable : Vector Redundancy 4096 := Vector.ofFn fun i => refEnc (BitVec.ofNat 12 i.val)

/-- DEC_TABLE of REF_AE3 as an instance holds it (R25). -/
def refDecTable : Vector Mask 2048 := Vector.ofFn fun i => refDec (BitVec.ofNat 11 i.val)

end Sys2Proof.Machine
end

