-- ==== Sys2Proof/Laws/RefTable.lean ====
section
/-! SUPPORT. The reference instance REF_AE3 is well formed (92_eei_decisions.md D7): the witness of every claim that
takes `TablesWF` as a premise. -/

namespace Sys2Proof.Machine

open Sys2Proof.Bits

/-- The weight of a number's low `n` bits, in a form the kernel evaluates quickly. -/
def natWeight : Nat → Nat → Nat
  | 0, _ => 0
  | n + 1, x => natWeight n (x / 2) + x % 2

theorem countP_range_testBit (n x : Nat) : (List.range n).countP x.testBit = natWeight n x := by
  induction n generalizing x with
  | zero => rfl
  | succ n ih =>
    rw [List.range_succ_eq_map, List.countP_cons, List.countP_map, natWeight, ← ih]
    have : (x.testBit ∘ Nat.succ) = (x / 2).testBit := by
      funext i
      simp [Nat.testBit_succ]
    rw [this]
    congr 1
    rcases Nat.mod_two_eq_zero_or_one x with h | h <;> simp [Nat.testBit_zero, h]

theorem popcount_eq_natWeight {n : Nat} (v : BitVec n) : popcount v = natWeight n v.toNat := by
  rw [← countP_range_testBit]
  rfl

theorem natWeight_add (m n x : Nat) : natWeight (m + n) x = natWeight m x + natWeight n (x / 2 ^ m) := by
  induction m generalizing x with
  | zero => simp [natWeight]
  | succ m ih =>
    rw [Nat.succ_add, natWeight, natWeight, ih, Nat.div_div_eq_div_mul, Nat.pow_succ, Nat.mul_comm 2]
    omega

/-- The weights of the numbers below 64, three bits each. -/
def weights64 : Nat :=
  (List.range 64).foldl (fun t y => t + natWeight 6 y * 8 ^ y) 0

/-- The weight of `y % 64`, looked up. -/
def weight6 (table y : Nat) : Nat := table / 8 ^ (y % 64) % 8

theorem weight6_eq (y : Nat) : weight6 weights64 y = natWeight 6 y := by
  have hmod : natWeight 6 y = natWeight 6 (y % 64) := by
    simp only [natWeight]
    omega
  have hall : ((List.range 64).all fun z => weights64 / 8 ^ z % 8 == natWeight 6 z) = true := by decide +kernel
  rw [hmod]
  simpa [weight6] using List.all_eq_true.mp hall _ (List.mem_range.mpr (Nat.mod_lt y (by omega)))

/-- The weight of a number below `2 ^ 24`, by four lookups. -/
def weight24 (table x : Nat) : Nat :=
  weight6 table x + (weight6 table (x / 64) + (weight6 table (x / 4096) + weight6 table (x / 262144)))

theorem weight24_eq (x : Nat) : weight24 weights64 x = natWeight 24 x := by
  rw [weight24, weight6_eq, weight6_eq, weight6_eq, weight6_eq, natWeight_add 6 18, natWeight_add 6 12,
    natWeight_add 6 6, Nat.div_div_eq_div_mul, Nat.div_div_eq_div_mul]
  norm_num

theorem popcount_eq_weight24 (v : Mask) : popcount v = weight24 weights64 v.toNat := by
  have h : v.toNat / 2 ^ 23 = 0 := Nat.div_eq_of_lt v.isLt
  rw [weight24_eq, popcount_eq_natWeight, natWeight_add 23 1, h]
  rfl

/-! Linearity. -/

theorem xorBasis_xor (a b : DataWord) (i : Nat) (rs : List Redundancy) :
    xorBasis (a ^^^ b) i rs = xorBasis a i rs ^^^ xorBasis b i rs := by
  induction rs generalizing i with
  | nil => simp [xorBasis]
  | cons r rs ih =>
    have hsel : (if (a ^^^ b).getLsbD i then r else 0) =
        (if a.getLsbD i then r else 0) ^^^ (if b.getLsbD i then r else 0) := by
      rw [BitVec.getLsbD_xor]
      cases a.getLsbD i <;> cases b.getLsbD i <;> simp
    simp only [xorBasis, ih, hsel]
    ac_rfl

theorem refEnc_linear : Linear refEnc := fun a b => xorBasis_xor a b 0 refBasis

theorem linear_zero {enc : DataWord → Redundancy} (h : Linear enc) : enc 0#12 = 0#11 := by
  have := h 0#12 0#12
  rwa [BitVec.xor_self, BitVec.xor_self] at this

/-! Distance: every codeword is a XOR of basis codewords, and each such XOR is weighed once. -/

/-- The basis codewords `(1 << i, ENC_TABLE[1 << i])` of REF_AE3. -/
def refRows : List Mask :=
  [0xAE3#23, 0x15C6#23, 0x216F#23, 0x42DE#23, 0x85BC#23, 0x1019B#23,
   0x20336#23, 0x4066C#23, 0x8063B#23, 0x100695#23, 0x2007C9#23, 0x400571#23]

/-- The XOR of the rows at the set bits of `d` from bit `i` up. -/
def xorRows (d : DataWord) : Nat → List Mask → Mask
  | _, [] => 0
  | i, r :: rest => (if d.getLsbD i then r else 0) ^^^ xorRows d (i + 1) rest

/-- Every XOR of a choice of the rows with `acc` is 0 or weighs at least 7. -/
def rowsWeigh (table : Nat) : List Nat → Nat → Bool
  | [], acc => Nat.beq acc 0 || Nat.ble 7 (weight24 table acc)
  | r :: rest, acc => rowsWeigh table rest acc && rowsWeigh table rest (Nat.xor acc r)

theorem rowsWeigh_sound (d : DataWord) (rows : List Mask) (i : Nat) (acc : Mask)
    (h : rowsWeigh weights64 (rows.map BitVec.toNat) acc.toNat = true) :
    acc ^^^ xorRows d i rows = 0#23 ∨ 7 ≤ popcount (acc ^^^ xorRows d i rows) := by
  induction rows generalizing i acc with
  | nil =>
    rw [xorRows, show acc ^^^ 0 = acc from BitVec.xor_zero, popcount_eq_weight24]
    rw [List.map_nil, rowsWeigh, Bool.or_eq_true] at h
    exact h.imp (fun h => BitVec.eq_of_toNat_eq (Nat.eq_of_beq_eq_true h)) Nat.le_of_ble_eq_true
  | cons r rest ih =>
    simp only [List.map_cons, rowsWeigh, Bool.and_eq_true] at h
    simp only [xorRows, ← BitVec.xor_assoc]
    cases d.getLsbD i
    · simpa using ih (i + 1) acc h.1
    · simpa using ih (i + 1) (acc ^^^ r) h.2

theorem maskRed_xorRows (d : DataWord) (i : Nat) (rows : List Mask) :
    maskRed (xorRows d i rows) = xorBasis d i (rows.map maskRed) := by
  induction rows generalizing i with
  | nil => simp [xorRows, xorBasis, maskRed]
  | cons r rest ih =>
    simp only [xorRows, maskRed_xor, ih, List.map_cons, xorBasis]
    cases d.getLsbD i <;> simp [maskRed]

theorem maskData_xorRows (d : DataWord) : maskData (xorRows d 0 refRows) = d := by
  apply BitVec.eq_of_getLsbD_eq
  intro j hj
  simp only [xorRows, refRows, maskData_xor, apply_ite maskData, BitVec.getLsbD_xor, apply_ite (BitVec.getLsbD · j)]
  interval_cases j <;> simp [maskData]

theorem codeword_refEnc (d : DataWord) : codeword refEnc d = xorRows d 0 refRows := by
  rw [← combined_halves (xorRows d 0 refRows), maskData_xorRows, maskRed_xorRows]
  rfl

theorem weights64_eq : weights64 = 0xd6cb23b238dab238da8da691b238da8da6918da691691448 := by
  decide +kernel

theorem refRows_weigh : rowsWeigh weights64 (refRows.map BitVec.toNat) 0 = true := by
  rw [weights64_eq]
  decide +kernel

theorem refEnc_distance : Distance7 refEnc := by
  intro d hd
  rcases rowsWeigh_sound d refRows 0 0#23 refRows_weigh with h | h
  · rw [BitVec.zero_xor, ← codeword_refEnc] at h
    have := congrArg maskData h
    rw [codeword, maskData_combined] at this
    exact absurd this hd
  · rwa [BitVec.zero_xor, ← codeword_refEnc] at h

/-! Coset leaders: the patterns of weight at most 3 reach every syndrome. -/

theorem patterns_lt {n w x : Nat} (h : x ∈ patterns n w) : x < 2 ^ n := by
  induction n generalizing w x with
  | zero => cases w <;> simp_all [patterns]
  | succ n ih =>
    cases w with
    | zero => simp_all [patterns]
    | succ w =>
      rw [Nat.pow_succ]
      simp only [patterns, List.mem_append, List.mem_map] at h
      rcases h with h | ⟨y, hy, rfl⟩
      · have := ih h
        omega
      · have := ih hy
        omega

theorem patterns_weight {n w x : Nat} (h : x ∈ patterns n w) : natWeight n x = w := by
  induction n generalizing w x with
  | zero => cases w <;> simp_all [patterns, natWeight]
  | succ n ih =>
    rw [natWeight_add n 1]
    cases w with
    | zero =>
      rw [patterns, List.mem_singleton] at h
      subst h
      rw [ih (w := 0) (by cases n <;> exact List.mem_singleton_self 0), Nat.zero_div]
      rfl
    | succ w =>
      simp only [patterns, List.mem_append, List.mem_map] at h
      rcases h with h | ⟨y, hy, rfl⟩
      · rw [ih h, Nat.div_eq_of_lt (patterns_lt h)]
        rfl
      · have hlow : natWeight n (2 ^ n + y) = natWeight n y := by
          rw [← countP_range_testBit, ← countP_range_testBit]
          apply List.countP_congr
          intro j hj
          rw [Nat.testBit_two_pow_add_gt (List.mem_range.mp hj)]
        rw [hlow, ih hy, Nat.add_div_left _ (Nat.two_pow_pos n), Nat.div_eq_of_lt (patterns_lt hy)]
        rfl

theorem popcount_of_mem_patterns {w x : Nat} (h : x ∈ patterns 23 w) : popcount (BitVec.ofNat 23 x) = w := by
  rw [popcount_eq_natWeight, BitVec.toNat_ofNat, Nat.mod_eq_of_lt (patterns_lt h), patterns_weight h]

theorem errorPatterns_light {e : Mask} (h : e ∈ errorPatterns) : popcount e ≤ 3 := by
  simp only [errorPatterns, List.mem_map, List.mem_append] at h
  obtain ⟨x, ((h | h) | h) | h, rfl⟩ := h <;> rw [popcount_of_mem_patterns h] <;> decide

/-- The syndromes of the patterns of weight `w`, from the syndromes of the single bits, the highest bit first. -/
def syndsOf : List Nat → Nat → List Nat
  | _, 0 => [0]
  | [], _ + 1 => []
  | r :: rows, w + 1 => syndsOf rows (w + 1) ++ (syndsOf rows w).map (Nat.xor r)

/-- The rows are the syndromes of the single bits, the highest bit first. -/
def SyndRows (enc : DataWord → Redundancy) : List Nat → Prop
  | [] => True
  | r :: rows => r = (synd enc (BitVec.twoPow 23 rows.length)).toNat ∧ SyndRows enc rows

theorem ofNat_two_pow_add {n y : Nat} (hy : y < 2 ^ n) :
    BitVec.ofNat 23 (2 ^ n + y) = BitVec.twoPow 23 n ^^^ BitVec.ofNat 23 y := by
  apply BitVec.eq_of_getLsbD_eq
  intro i hi
  simp only [BitVec.getLsbD_xor, BitVec.getLsbD_ofNat, BitVec.getLsbD_twoPow, hi, decide_true, Bool.true_and]
  rcases Nat.lt_trichotomy i n with h | rfl | h
  · rw [Nat.testBit_two_pow_add_gt h]
    simp [Nat.ne_of_gt h]
  · rw [Nat.testBit_two_pow_add_eq]
    simp [hi]
  · have h1 : (2 ^ n + y).testBit i = false :=
      Nat.testBit_lt_two_pow (Nat.lt_of_lt_of_le (by rw [Nat.pow_succ]; omega) (Nat.pow_le_pow_right (by omega) h))
    have h2 : y.testBit i = false :=
      Nat.testBit_lt_two_pow (Nat.lt_trans hy (Nat.pow_lt_pow_right (by omega) h))
    rw [h1, h2]
    simp [Nat.ne_of_lt h]

theorem synds_of_patterns {enc : DataWord → Redundancy} (hl : Linear enc) (rows : List Nat) (h : SyndRows enc rows)
    (w : Nat) :
    (patterns rows.length w).map (fun x => (synd enc (BitVec.ofNat 23 x)).toNat) = syndsOf rows w := by
  have hz : (synd enc 0#23).toNat = 0 := by
    rw [synd, show maskData 0#23 = 0#12 by decide, linear_zero hl]
    decide
  induction rows generalizing w with
  | nil => cases w <;> simp [patterns, syndsOf, hz]
  | cons r rows ih =>
    cases w with
    | zero => simp [patterns, syndsOf, hz]
    | succ w =>
      rw [List.length_cons, patterns, syndsOf, List.map_append, ih h.2, ← ih h.2 w, List.map_map, List.map_map]
      congr 1
      apply List.map_congr_left
      intro y hy
      simp only [Function.comp_apply]
      rw [ofNat_two_pow_add (patterns_lt hy), hl.synd_xor, BitVec.toNat_xor, h.1]
      rfl

/-- The syndromes of the single bits of REF_AE3, the highest bit first. -/
def refSyndRows : List Nat :=
  [0x571, 0x7C9, 0x695, 0x63B, 0x66C, 0x336, 0x19B, 0x5BC, 0x2DE, 0x16F, 0x5C6, 0x2E3,
   0x400, 0x200, 0x100, 0x080, 0x040, 0x020, 0x010, 0x008, 0x004, 0x002, 0x001]

theorem refSyndRows_eq : SyndRows refEnc refSyndRows := by
  simp only [refSyndRows, SyndRows, List.length_cons, List.length_nil]
  decide +kernel

/-- A set of numbers, as the bits of a number. -/
def bitSet (l : List Nat) : Nat := l.foldr (fun x acc => Nat.lor acc (Nat.pow 2 x)) 0

theorem mem_of_bitSet (l : List Nat) (x : Nat) (h : (bitSet l).testBit x = true) : x ∈ l := by
  induction l with
  | nil => simp [bitSet] at h
  | cons y l ih =>
    have h' : (bitSet l ||| 2 ^ y).testBit x = true := h
    rw [Nat.testBit_or, Bool.or_eq_true, Nat.testBit_two_pow, decide_eq_true_eq] at h'
    rcases h' with h' | rfl
    · exact List.mem_cons_of_mem _ (ih h')
    · exact List.mem_cons_self

theorem refSynds_all :
    bitSet (syndsOf refSyndRows 0 ++ syndsOf refSyndRows 1 ++ syndsOf refSyndRows 2 ++ syndsOf refSyndRows 3) =
      2 ^ 2048 - 1 := by decide +kernel

theorem refEnc_reaches (s : Syndrome) : ∃ e ∈ errorPatterns, synd refEnc e = s := by
  have hmem := mem_of_bitSet _ s.toNat (by
    rw [refSynds_all, Nat.testBit_two_pow_sub_one]
    exact decide_eq_true s.isLt)
  simp only [← synds_of_patterns refEnc_linear refSyndRows refSyndRows_eq, ← List.map_append] at hmem
  obtain ⟨x, hx, hs⟩ := List.mem_map.mp hmem
  exact ⟨BitVec.ofNat 23 x, List.mem_map_of_mem hx, BitVec.eq_of_toNat_eq hs⟩

theorem refDec_spec (s : Syndrome) : popcount (refDec s) ≤ 3 ∧ synd refEnc (refDec s) = s := by
  obtain ⟨e, he, hs⟩ := refEnc_reaches s
  have hmem : e ∈ errorPatterns.filter fun e => synd refEnc e = s := by simp [he, hs]
  have hne : (errorPatterns.filter fun e => synd refEnc e = s) ≠ [] := List.ne_nil_of_mem hmem
  have hlast := List.getLast_mem hne
  rw [refDec, buildDec, List.getLast?_eq_some_getLast hne, Option.getD_some]
  rw [List.mem_filter] at hlast
  exact ⟨errorPatterns_light hlast.1, by simpa using hlast.2⟩

theorem refTablesWF : TablesWF refEnc refDec where
  linear := refEnc_linear
  distance := refEnc_distance
  leaders := by
    intro s e
    obtain ⟨hw, hs⟩ := refDec_spec s
    constructor
    · rintro ⟨he, rfl⟩
      exact eq_of_synd_eq refEnc_linear refEnc_distance he hw hs.symm
    · rintro rfl
      exact ⟨hw, hs⟩

end Sys2Proof.Machine
end

