-- ==== Sys2Proof/Machine/Assembly.lean ====
section
/-! DEFINITION. The assembly syntax of 30_encoding.md R78: one operation a line, results named on the left, numbers in
hexadecimal. A notation only: no step reads it. -/

namespace Sys2Proof.Machine

/-- One hexadecimal digit. -/
def hexDigit (n : Nat) : Char :=
  "0123456789ABCDEF".toList.getD n '?'

/-- The hexadecimal digits of `n`, most significant first, `width` of them. -/
def hexDigits (n : Nat) : Nat → List Char
  | 0 => []
  | width + 1 => hexDigit (n / 16 ^ width % 16) :: hexDigits n width

/-- A value of `width` hexadecimal digits as R78 writes it, `0x..`. -/
def hex (width n : Nat) : String := "0x" ++ String.ofList (hexDigits n width)

/-- The names R78 gives the results of an operation. -/
def resultNames : Instr → String
  | .split3 _ _ _ => "(w0, w1)"
  | .join3 _ _ => "(b0, b1, b2)"
  | .encw _ => "(f0, f1, f2)"
  | .decw _ _ _ => "(d, flag)"
  | .enc24 _ _ _ => "(r0, r1, r2, r3, r4, r5)"
  | .dec48 _ _ _ _ _ _ => "(b0, b1, b2, cnt)"
  | .senc => "out'"
  | .sdec => "(count, out')"

/-- The operand list of an operation (R78). -/
def operandList : Instr → List String
  | .split3 b0 b1 b2 => [hex 2 b0.toNat, hex 2 b1.toNat, hex 2 b2.toNat]
  | .join3 w0 w1 => [hex 3 w0.toNat, hex 3 w1.toNat]
  | .encw d => [hex 3 d.toNat]
  | .decw f0 f1 f2 => [hex 2 f0.toNat, hex 2 f1.toNat, hex 2 f2.toNat]
  | .enc24 b0 b1 b2 => [hex 2 b0.toNat, hex 2 b1.toNat, hex 2 b2.toNat]
  | .dec48 r0 r1 r2 r3 r4 r5 =>
    [hex 2 r0.toNat, hex 2 r1.toNat, hex 2 r2.toNat, hex 2 r3.toNat, hex 2 r4.toNat, hex 2 r5.toNat]
  | .senc => ["in", "out"]
  | .sdec => ["in", "out"]

/-- The name of an operation (R73). -/
def operationName : Instr → String
  | .split3 _ _ _ => "SPLIT3"
  | .join3 _ _ => "JOIN3"
  | .encw _ => "ENCW"
  | .decw _ _ _ => "DECW"
  | .enc24 _ _ _ => "ENC24"
  | .dec48 _ _ _ _ _ _ => "DEC48"
  | .senc => "SENC"
  | .sdec => "SDEC"

/-- Operands separated by commas. -/
def commaList : List String → String
  | [] => ""
  | [x] => x
  | x :: y :: rest => x ++ ", " ++ commaList (y :: rest)

/-- An operation as one line of R78's syntax. -/
def assemblyLine (i : Instr) : String :=
  resultNames i ++ " := " ++ operationName i ++ " " ++ commaList (operandList i)

end Sys2Proof.Machine
end

