-- ==== Sys2Proof/Tests/Slice0.lean ====
section
/-! SUPPORT. The model's own tests. Expected values are those of 95_test_vectors.md and of the rules' own examples; the
last part gives, for each statement with hypotheses, states and operands that meet them. -/

namespace Sys2Proof.Tests

open Sys2Proof Sys2Proof.Machine Sys2Proof.Bits

/-! ## Ill-formed command words, one for each check (R74, V1 to V3) -/

theorem test_wellFormed_rsv0 : CmdFields.wellFormed 0x0000000056341208#64 = false := by decide
theorem test_wellFormed_rsv1 : CmdFields.wellFormed 0x0100000000000005#64 = false := by decide
theorem test_wellFormed_payload24 : CmdFields.wellFormed 0x0000000100000003#64 = false := by decide
theorem test_wellFormed_payload12 : CmdFields.wellFormed 0x0000000000100002#64 = false := by decide
theorem test_wellFormed_payload0 : CmdFields.wellFormed 0x0000000000000106#64 = false := by decide
theorem test_wellFormed_dec48_uses_all_payload : CmdFields.wellFormed 0x00FFFFFFFFFFFF05#64 = true := by decide
theorem test_decode_refuses_rsv0 :
    decode 0x0000000056341208#64 = .error (.illegalCommand 0x0000000056341208#64) := by decide
theorem test_decode_refuses_senc_payload :
    decode 0x0000000000000106#64 = .error (.illegalCommand 0x0000000000000106#64) := by decide

/-! ## Words written out from the layout of R70 and R72 (95_test_vectors.md 2.6) -/

theorem test_decode_split3 : decode 0x0000000056341200#64 = .ok (.split3 0x12 0x34 0x56) := by decide
theorem test_decode_join3 : decode 0x0000000035641201#64 = .ok (.join3 0x412 0x356) := by decide
theorem test_decode_encw : decode 0x0000000000041202#64 = .ok (.encw 0x412) := by decide
theorem test_decode_decw_unused_bit : decode 0x00000000A097B303#64 = .ok (.decw 0xB3 0x97 0xA0) := by decide
theorem test_decode_enc24 : decode 0x0000000056341204#64 = .ok (.enc24 0x12 0x34 0x56) := by decide
theorem test_decode_dec48 :
    decode 0x001AB28D2097B205#64 = .ok (.dec48 0xB2 0x97 0x20 0x8D 0xB2 0x1A) := by decide
theorem test_decode_dec48_unused_bit : decode 0x0080000000000005#64 = .ok (.dec48 0 0 0 0 0 0x80) := by decide
theorem test_decode_senc : decode 0x0000000000000006#64 = .ok .senc := by decide
theorem test_decode_sdec : decode 0x0000000000000007#64 = .ok .sdec := by decide
theorem test_encode_join3 : encode (.join3 0x412 0x356) = 0x0000000035641201#64 := by decide
theorem test_encode_dec48 : encode (.dec48 0xB2 0x97 0x20 0x8D 0xB2 0x1A) = 0x001AB28D2097B205#64 := by decide

/-! ## Helpers: what a result returned, and an instance that holds REF_AE3 -/

/-- The response word of a next state. -/
def resOf : Result → Option Response
  | .next t => t.res
  | .fault _ => none
  | .refused _ => none

/-- Whether a step answered a next state. -/
def isNext : Result → Bool
  | .next _ => true
  | .fault _ => false
  | .refused _ => false

/-- The output buffer and the run of a next state. -/
def outOf : Result → Option (List Byte × Stream)
  | .next t => some (t.buffers.output, t.stream)
  | .fault _ => none
  | .refused _ => none

/-- The instance after reset, holding the tables of REF_AE3. -/
def refState : State := { State.reset with encTable := refEncTable, decTable := refDecTable }

/-- A command word presented with two buffers of its own. -/
def call (c : CmdWord) (input output : List Byte) : Presented := ⟨c, ⟨input, output, 0, 1⟩⟩

/-- A command word presented without a buffer. -/
def word (c : CmdWord) : Presented := ⟨c, Buffers.absent⟩

/-- `refState` with a host's buffers, commands and run. -/
def stateWith (input output : List Byte) (commands : List Presented) (stream : Stream) : State :=
  { refState with buffers := ⟨input, output, 0, 1⟩, commands := commands, stream := stream }

theorem enc_of_ref {s : State} (h : s.encTable = refEncTable) : s.enc = refEnc := s.enc_ofFn refEnc h
theorem dec_of_ref {s : State} (h : s.decTable = refDecTable) : s.dec = refDec := s.dec_ofFn refDec h

theorem refState_enc : refState.enc = refEnc := refState.enc_ofFn refEnc rfl
theorem refState_dec : refState.dec = refDec := refState.dec_ofFn refDec rfl

theorem tablesWF_of_ref {s : State} (he : s.encTable = refEncTable) (hd : s.decTable = refDecTable) : s.TablesWF := by
  unfold State.TablesWF
  rw [enc_of_ref he, dec_of_ref hd]
  exact refTablesWF

/-- An entry of REF_AE3's DecodeTable, from the pattern the spec lists for it. -/
theorem refDec_at {x : Syndrome} (m : Mask) (hw : popcount m ≤ 3) (hs : synd refEnc m = x) : refDec x = m :=
  hs ▸ refTablesWF.dec_synd hw

/-- DECW under REF_AE3, from the mask the spec lists. -/
theorem decw_at {f : Fragment} (m : Mask) (hw : popcount m ≤ 3) (hs : synd refEnc m = syndrome refEnc f) :
    decw refEnc refDec f = ⟨maskData (combined (fragData f) (fragRed f) ^^^ m), correctionFlag m⟩ := by
  simp only [decw, corrected, correctionMask, refDec_at m hw hs]

/-! ## REF_AE3 (95_test_vectors.md) -/

theorem test_refEnc_FFF : refEnc 0xFFF = 0x7FF := by decide
theorem test_refEnc_412 : refEnc 0x412 = 0x7B3 := by decide
theorem test_refDec_7FF : refDec 0x7FF = 0x050008 := refDec_at _ (by decide) (by decide)
theorem test_refDec_123 : refDec 0x123 = 0x085000 := refDec_at _ (by decide) (by decide)

/-! ## `decodeTableWord` numbers the bits as the opcode table does -/

theorem test_decodeTableWord_rows :
    decodeTableWord 64 0 = some (.split3 0 0 0) ∧ decodeTableWord 64 1 = some (.join3 0 0) ∧
    decodeTableWord 64 2 = some (.encw 0) ∧ decodeTableWord 64 3 = some (.decw 0 0 0) ∧
    decodeTableWord 64 4 = some (.enc24 0 0 0) ∧ decodeTableWord 64 5 = some (.dec48 0 0 0 0 0 0) ∧
    decodeTableWord 64 6 = some .senc ∧ decodeTableWord 64 7 = some .sdec ∧ decodeTableWord 64 8 = none := by decide

/-! ## One step of each operation from reset, presented as the first command -/

theorem test_first_steps_complete :
    ([0x56341200, 0x35641201, 0x41202, 0xA097B303, 0x56341204, 0x1AB28D2097B205, 6, 7].all fun w =>
      isNext (step (State.reset.withFetchWord 64 w))) = true := by decide

theorem test_first_step_runs_join3 :
    resOf (step (State.reset.withFetchWord 64 0x35641201)) = some 0x563412#64 := by decide

/-! ## BitPacker (95_test_vectors.md 2.2) -/

theorem test_split3 : resOf (exec (.split3 0xA5 0x5A 0xC3) State.reset) = some 0x5C3AA5#64 := by decide
theorem test_split3_nibbles : split3 ⟨0xFF, 0xF0, 0x00⟩ = ⟨0x0FF, 0xF00⟩ := by decide
theorem test_join3 : resOf (exec (.join3 0xFFF 0x000) State.reset) = some 0x000FFF#64 := by decide
theorem test_join3_nibble : join3 ⟨0x000, 0xF00⟩ = ⟨0x00, 0xF0, 0x00⟩ := by decide
theorem test_packFragment : packFragment 0x412 0x7B3 = ⟨0xB3, 0x97, 0x20⟩ := by decide
theorem test_fragData_ignores_unused_bit : fragData ⟨0xB3, 0x97, 0xA0⟩ = 0x412 := by decide
theorem test_fragRed : fragRed ⟨0xB3, 0x97, 0x20⟩ = 0x7B3 := by decide

/-! ## Encoder under REF_AE3 (95_test_vectors.md 2.3) -/

theorem test_encw : resOf (exec (.encw 0x412) refState) = some 0x2097B3#64 := by
  show some (fragmentResponse (encw refState.enc 0x412)) = _
  rw [refState_enc]
  decide

theorem test_encw_data_bits : encw refEnc 0x020 = ⟨0x9B, 0x01, 0x01⟩ := by decide

theorem test_enc24 : resOf (exec (.enc24 0x12 0x34 0x56) refState) = some 0x1AB28D2097B3#64 := by
  show some (codeResponse (enc24 refState.enc ⟨0x12, 0x34, 0x56⟩)) = _
  rw [refState_enc]
  decide

theorem test_enc24_second_word : enc24 refEnc ⟨0x00, 0xF0, 0x00⟩ = ⟨0x00, 0x00, 0x00, 0x16, 0x02, 0x78⟩ := by
  decide

/-! ## Decoder under REF_AE3 (95_test_vectors.md 2.4) -/

theorem test_decw_triple_error : resOf (exec (.decw 0xB7 0x95 0x22) refState) = some 0x1000000000412#64 := by
  show some (decodedResponse (decw refState.enc refState.dec ⟨0xB7, 0x95, 0x22⟩)) = _
  rw [refState_enc, refState_dec, decw_at 0x020204 (by decide) (by decide)]
  decide

theorem test_decw_beyond_limit : decw refEnc refDec ⟨0xB3, 0xEF, 0x20⟩ = ⟨0x61D, true⟩ := by
  rw [decw_at 0x100201 (by decide) (by decide)]
  decide

theorem test_dec48_two_words :
    resOf (exec (.dec48 0xBB 0x17 0x00 0x8F 0xB0 0x0A) refState) = some 0x2000000563412#64 := by
  show some (blockDecodedResponse (dec48 refState.enc refState.dec ⟨0xBB, 0x17, 0x00, 0x8F, 0xB0, 0x0A⟩).1
    (dec48 refState.enc refState.dec ⟨0xBB, 0x17, 0x00, 0x8F, 0xB0, 0x0A⟩).2) = _
  simp only [refState_enc, refState_dec, dec48, firstFragment, secondFragment]
  rw [decw_at 0x208008 (by decide) (by decide),
    decw_at 0x100202 (by decide) (by decide)]
  decide

/-! ## Stream sequencer (95_test_vectors.md 2.5, P4, P5) -/

/-- The first SENC block step, for any tables. -/
theorem senc_first_block (s : State) (b0 b1 b2 : Byte) (hi : s.buffers.input = [b0, b1, b2])
    (hs : s.stream = .running .senc 0 0) :
    outOf (step s) = some (s.buffers.output ++ codeBytes (enc24 s.enc ⟨b0, b1, b2⟩), .running .senc 1 0) := by
  simp [step, hs, hi, sequencerStep, StreamOp.blocks, StreamOp.blockBytes, sencBlock, memRead, outOf]
  rfl

theorem test_senc_block :
    outOf (step (stateWith [0x12, 0x34, 0x56] [0xAA] [] (.running .senc 0 0))) =
      some ([0xAA, 0xB3, 0x97, 0x20, 0x8D, 0xB2, 0x1A], .running .senc 1 0) := by
  rw [senc_first_block _ 0x12 0x34 0x56 rfl rfl, enc_of_ref (s := stateWith _ _ _ _) rfl]
  show some ([0xAA] ++ codeBytes (enc24 refEnc ⟨0x12, 0x34, 0x56⟩), _) = _
  decide

theorem test_senc_wrong_length :
    outOf (exec .senc (stateWith [1, 2, 3, 4] [0xAA] [] .idle)) = some ([0xAA], .faulted (.sencLen 4)) := by
  decide

/-- The first SDEC block step, for any tables. -/
theorem sdec_first_block (s : State) (r0 r1 r2 r3 r4 r5 : Byte) (n : Nat) (hi : s.buffers.input = [r0, r1, r2, r3, r4, r5])
    (hs : s.stream = .running .sdec 0 n) :
    outOf (step s) = some (s.buffers.output ++ dataBytes (dec48 s.enc s.dec ⟨r0, r1, r2, r3, r4, r5⟩).1,
      .running .sdec 1 (n + (dec48 s.enc s.dec ⟨r0, r1, r2, r3, r4, r5⟩).2.toNat)) := by
  simp [step, hs, hi, sequencerStep, StreamOp.blocks, StreamOp.blockBytes, sdecBlock, memRead, outOf]
  exact ⟨rfl, rfl⟩

theorem test_dec48_block :
    dec48 refEnc refDec ⟨0xB2, 0x97, 0x20, 0x8D, 0xB2, 0x1A⟩ = (⟨0x12, 0x34, 0x56⟩, 1#2) := by
  simp only [dec48, firstFragment, secondFragment]
  rw [decw_at 0x000001 (by decide) (by decide),
    decw_at 0x000000 (by decide) (by decide)]
  decide

theorem test_sdec_block :
    outOf (step (stateWith [0xB2, 0x97, 0x20, 0x8D, 0xB2, 0x1A] [] [] (.running .sdec 0 5))) =
      some ([0x12, 0x34, 0x56], .running .sdec 1 6) := by
  rw [sdec_first_block _ 0xB2 0x97 0x20 0x8D 0xB2 0x1A 5 rfl rfl, enc_of_ref (s := stateWith _ _ _ _) rfl,
    dec_of_ref (s := stateWith _ _ _ _) rfl, test_dec48_block]
  rfl

/-- P4: the second call runs on the buffers it is passed, not on those of the first. -/
theorem test_second_call_own_buffers :
    outOf (step (stateWith [1, 2, 3] [7, 8, 9] [call 7 [1, 2, 3, 4, 5, 6, 7] [0xBB]] (.done .senc 1 0))) =
      some ([0xBB], .faulted (.sdecLen 7)) := by decide

/-- P5: the launch that follows a precondition fault. -/
theorem test_launch_after_fault :
    outOf (step (stateWith [1, 2, 3, 4] [0xAA] [call 6 [1, 2, 3] [0xAA]] (.faulted (.sencLen 4)))) =
      some ([0xAA], .running .senc 0 0) := by decide

/-- R166: a wrong length is a fault, also where one buffer is passed as both. -/
theorem test_wrong_length_one_buffer :
    outOf (exec .senc { refState with buffers := ⟨[1, 2, 3, 4], [1, 2, 3, 4], 0, 0⟩ }) =
      some ([1, 2, 3, 4], .faulted (.sencLen 4)) := by decide

/-- U12, R187 (b): a launch that reads what another call reads, and an empty one that appends to it. -/
theorem test_shared_with_reader :
    exec .sdec { refState with buffers := ⟨List.replicate 6 0, [], 2, 3⟩, others := [⟨2, 7⟩] } =
      .refused (.sharedBuffer 2 3) ∧
    exec .sdec { refState with buffers := ⟨[], [], 2, 3⟩, others := [⟨3, 7⟩] } = .refused (.sharedBuffer 2 3) :=
  ⟨rfl, rfl⟩

theorem test_sdec_wrong_length :
    outOf (exec .sdec (stateWith [1, 2, 3, 4, 5, 6, 7, 8, 9] [] [] .idle)) = some ([], .faulted (.sdecLen 9)) := by
  decide

/-! ## Assembly syntax (R78, P3) -/

theorem test_assembly_decw : assemblyLine (.decw 0xB7 0x95 0x22) = "(d, flag) := DECW 0xB7, 0x95, 0x22" := by
  decide
theorem test_assembly_sdec : assemblyLine .sdec = "(count, out') := SDEC in, out" := by decide

/-! ## Witnesses: the hypotheses of the statements can be met -/

theorem witness_TablesWF : refState.TablesWF := tablesWF_of_ref rfl rfl
/-- The zero word under a well-formed table, the last clauses of the statements on ENCW and ENC24. -/
theorem witness_zero_clauses : refState.TablesWF ∧ refState.enc 0#12 = 0#11 :=
  ⟨witness_TablesWF, by rw [refState_enc]; decide⟩

theorem witness_TablesWF_functions : Sys2Proof.Machine.TablesWF refEnc refDec := refTablesWF
theorem witness_Linear_and_Distance7 : Linear refEnc ∧ Distance7 refEnc := ⟨refEnc_linear, refEnc_distance⟩

theorem witness_EncodeOfDecodeIsIdentity : ∃ c i, decode c = .ok i := ⟨_, _, test_decode_dec48⟩

/-- Each clause of the reserved set on its own, and a word with none, on an instance that is not busy. -/
theorem witness_ReservedBitsAreIllegal :
    (0x0000000056341208#64).extractLsb' 3 5 ≠ 0#5 ∧ (0x0100000000000005#64).extractLsb' 56 8 ≠ 0#8 ∧
    ((0x0000000100000003#64).extractLsb' 0 3 = 3#3 ∧ (0x0000000100000003#64).extractLsb' 32 24 ≠ 0#24) ∧
    ((0x0000000000100002#64).extractLsb' 0 3 = 2#3 ∧ (0x0000000000100002#64).extractLsb' 20 36 ≠ 0#36) ∧
    ((0x0000000000000106#64).extractLsb' 0 3 = 6#3 ∧ (0x0000000000000106#64).extractLsb' 8 48 ≠ 0#48) ∧
    (stateWith [] [] [word 0x0000000056341208#64] .idle).busy = false ∧
    ((0x00FFFFFFFFFFFF05#64).extractLsb' 3 5 = 0#5 ∧ (0x00FFFFFFFFFFFF05#64).extractLsb' 56 8 = 0#8 ∧
      (0x00FFFFFFFFFFFF05#64).extractLsb' 0 3 = 5#3) := by decide

/-- Also meets the hypotheses of the statements about any step that answers a next state. -/
theorem witness_StepRunsDecodedInstruction :
    let s := stateWith [] [] [word 0x56341200#64] .idle
    s.busy = false ∧ s.commands = ⟨0x56341200#64, Buffers.absent⟩ :: [] ∧ decode 0x56341200#64 = .ok (.split3 0x12 0x34 0x56) ∧
      ∃ t, step s = .next t := ⟨rfl, rfl, by decide, _, rfl⟩

theorem witness_IdleStepChangesNothing : State.reset.busy = false ∧ State.reset.commands = [] := ⟨rfl, rfl⟩

theorem witness_RunningCallAcceptsNoCommand :
    let s := stateWith [1, 2, 3] [] [word 7#64] (.running .senc 0 0)
    s.busy = true ∧ ∃ t, step s = .next t := ⟨rfl, _, rfl⟩

theorem witness_exec_next : (∃ t, exec (.encw 0) refState = .next t) ∧ (∃ t, exec .senc refState = .next t) ∧
    ∃ t, exec .sdec refState = .next t := ⟨⟨_, rfl⟩, ⟨_, rfl⟩, ⟨_, rfl⟩⟩

theorem witness_ResponsesDependOnOperandsAndTables :
    (Instr.encw 0) ≠ .senc ∧ (Instr.encw 0) ≠ .sdec ∧ (stateWith [1] [2] [] .idle).encTable = refState.encTable ∧
      (stateWith [1] [2] [] .idle).decTable = refState.decTable := ⟨by decide, by decide, rfl, rfl⟩

/-- Weights 0 and 3, the ends of the range of R130. -/
theorem witness_DecodingCorrectsUpToThreeErrors :
    refState.TablesWF ∧ popcount (0#23) ≤ 3 ∧ popcount (0x020204#23) = 3 :=
  ⟨witness_TablesWF, by decide, by decide⟩

/-- Weights 1, 4, 6 and 7, the last a codeword, the ends of the ranges of R131. -/
theorem witness_BeyondTheLimitDecodingIsSilentlyWrong :
    refState.TablesWF ∧ popcount (0x000001#23) = 1 ∧ popcount (0x007800#23) = 4 ∧ popcount (0x00003F#23) = 6 ∧
      popcount (0x000AE3#23) = 7 ∧ codeword refState.enc 1 = 0x000AE3#23 := by
  refine ⟨witness_TablesWF, by decide, by decide, by decide, by decide, ?_⟩
  rw [refState_enc]
  decide

/-- Each clause: right and wrong lengths of both operations, a wrong length where the call would share an input, a step
of a run and of a faulted one. -/
theorem witness_LaunchDecidesTheLength :
    (∀ n ∈ [3, 4, 6], (Buffers.mk (List.replicate n 1) [] 0 1).Exclusive []) ∧
    3 % 3 = 0 ∧ 4 % 3 ≠ 0 ∧ 6 % 6 = 0 ∧ 4 % 6 ≠ 0 ∧
    (Buffers.mk (List.replicate 4 1) [] 0 0).namesAppended [⟨0, 5⟩] = false ∧
    (Buffers.mk (List.replicate 4 1) [] 0 0).sharesInput [⟨0, 5⟩] = true ∧
    (∃ t, step (stateWith [1, 2, 3] [] [] (.running .senc 1 0)) = .next t) ∧
    (∃ t, step (stateWith [1] [] [] (.faulted (.sencLen 1))) = .next t) ∧
    ∃ t, step (stateWith [1] [] [call 6 [1, 2, 3] []] (.faulted (.sencLen 1))) = .next t := by
  refine ⟨?_, by decide, by decide, by decide, by decide, by decide, by decide, ⟨_, rfl⟩, ⟨_, rfl⟩, ⟨_, rfl⟩⟩
  simp only [Buffers.Exclusive]
  decide

/-- One case for each way a launch is refused (an empty input on another call's input among them), and the nearest that
are not: a wrong length on one buffer, an empty input on one buffer, and a wrong length on another call's input. -/
theorem witness_SharedBufferLaunchIsRefused :
    let b := fun (n inputName outputName : Nat) => Buffers.mk (List.replicate n 1) [] inputName outputName
    (b 4 0 1).namesAppended [⟨5, 1⟩] = true ∧ (b 4 0 1).namesAppended [⟨5, 0⟩] = true ∧
    (b 6 1 1).sharesInput [] = true ∧ (b 6 0 1).sharesInput [⟨1, 5⟩] = true ∧ (b 6 0 1).sharesInput [⟨0, 5⟩] = true ∧
    (b 0 0 1).sharesInput [⟨1, 5⟩] = true ∧ (b 6 0 1).Exclusive [⟨4, 5⟩] ∧
    isNext (exec .senc { refState with buffers := b 4 1 1 }) = true ∧
    isNext (exec .sdec { refState with buffers := b 0 1 1 }) = true ∧
    isNext (exec .sdec { refState with buffers := b 4 0 1, others := [⟨1, 5⟩] }) = true := by
  simp only [Buffers.Exclusive]
  decide

/-- The first and the last block of a two-block input, and the end of the run. -/
theorem witness_SencBlockStep_and_RunEnds :
    let s := fun k => stateWith [1, 2, 3, 4, 5, 6] [] [] (.running .senc k 0)
    (s 0).stream = .running .senc 0 0 ∧ 0 < (s 0).buffers.input.length / 3 ∧ 1 < (s 1).buffers.input.length / 3 ∧
      2 = StreamOp.senc.blocks (s 2).buffers.input.length := ⟨rfl, by decide, by decide, by decide⟩

theorem witness_SdecBlockStep_and_RunEnds :
    let s := fun k => stateWith [1, 2, 3, 4, 5, 6, 7, 8, 9, 10, 11, 12] [] [] (.running .sdec k 0)
    (s 0).stream = .running .sdec 0 0 ∧ 0 < (s 0).buffers.input.length / 6 ∧ 1 < (s 1).buffers.input.length / 6 ∧
      2 = StreamOp.sdec.blocks (s 2).buffers.input.length := ⟨rfl, by decide, by decide, by decide⟩

theorem witness_RunEnds_faulted : (stateWith [1] [] [] (.faulted (.sencLen 1))).stream = .faulted (.sencLen 1) := rfl

/-- Both operations, each where its whole call returns and where it raises. -/
theorem witness_SmallStepsEqualWholeCalls :
    let s := fun c n => stateWith [] [] [call c (List.replicate n 1) [0xAA]] .idle
    let b := fun n => Buffers.mk (List.replicate n 1) [0xAA] 0 1
    (∀ n ∈ [3, 4, 6], (b n).Exclusive []) ∧ decode 6#64 = .ok .senc ∧ decode 7#64 = .ok .sdec ∧
    ((s 6#64 3).busy = false ∧ (s 6#64 3).commands = ⟨6#64, b 3⟩ :: [] ∧
      (s 7#64 6).commands = ⟨7#64, b 6⟩ :: [] ∧ (s 7#64 4).commands = ⟨7#64, b 4⟩ :: []) ∧
    (∃ out, sencCall refEnc (b 3).input [0xAA] = .ok out) ∧
    sencCall refEnc (b 4).input [0xAA] = .error (.sencLen 4) ∧
    (∃ r, sdecCall refEnc refDec (b 6).input [0xAA] = .ok r) ∧
    sdecCall refEnc refDec (b 4).input [0xAA] = .error (.sdecLen 4) := by
  refine ⟨?_, by decide, by decide, ⟨rfl, rfl, rfl, rfl⟩, ⟨_, rfl⟩, rfl, ⟨_, rfl⟩, rfl⟩
  simp only [Buffers.Exclusive]
  decide

theorem witness_EmptyInputIsValid :
    let s := stateWith [] [] [call 6#64 [] [0xAA]] .idle
    let b := Buffers.mk [] [0xAA] 0 1
    s.busy = false ∧ s.commands = ⟨6#64, b⟩ :: [] ∧ b.namesAppended s.others = false ∧
      b.namesRead s.others = false ∧ b.input = [] :=
  ⟨rfl, rfl, rfl, rfl, rfl⟩

theorem witness_whole_calls :
    (∃ out, sencCall refEnc [1, 2, 3] [0xAA] = .ok out) ∧
    ∃ out count, sdecCall refEnc refDec [1, 2, 3, 4, 5, 6] [] = .ok (count, out) := ⟨⟨_, rfl⟩, ⟨_, _, rfl⟩⟩

/-- The positions where the clauses of R152 meet, and the ends of the weight ranges. -/
theorem witness_FlippedBlocksDecode :
    ([0, 22, 23, 24, 46, 47].all fun i => decide (i < 48)) = true ∧ popcount (0x7#23) = 3 ∧ popcount (0#23) = 0 := by
  decide

theorem witness_StepKeepsInvariant :
    State.reset.Inv ∧ (∃ t, step State.reset = .next t) ∧
    (stateWith [1, 2, 3, 4, 5, 6] [] [] (.running .sdec 0 0)).Inv ∧
    (stateWith [1, 2, 3] [] [] (.done .senc 1 0)).Inv ∧ (stateWith [1] [] [] (.faulted (.sencLen 1))).Inv := by
  refine ⟨trivial, ⟨_, rfl⟩, ⟨⟨rfl, rfl⟩, by decide, by decide, by decide, by decide⟩,
    ⟨⟨⟨rfl, rfl⟩, by decide, by decide, by decide, by decide⟩, by decide⟩, ⟨rfl, by decide⟩⟩

theorem witness_ReadyMachineNeverStops :
    (stateWith [] [] [call 6#64 [1] [], word 0x56341200#64] .idle).Ready := by
  refine ⟨trivial, fun p hp => ?_⟩
  simp only [stateWith, List.mem_cons, List.not_mem_nil, or_false] at hp
  rcases hp with rfl | rfl <;> exact ⟨by decide, rfl, rfl⟩

theorem witness_StepKeepsProgress :
    let s := stateWith [1, 2, 3] [0xAA] [] (.running .senc 0 0)
    s.busy = true ∧ s.Progress [0xAA] ∧ ∃ t, step s = .next t := ⟨rfl, rfl, _, rfl⟩

theorem witness_BuffersAreNotRetained :
    let s := stateWith [1, 2, 3] [0xAA] [call 7#64 [] []] (.done .senc 1 0)
    s.busy = false ∧ { s with stream := .faulted (.sencLen 1) }.busy = false := ⟨rfl, rfl⟩

end Sys2Proof.Tests
end

section
/-! SUPPORT. The command-word decoder: the mask test of R77 passes exactly when every bit that must be 0 is 0, and what
`decode` and `step` do with a word follows from that (30_encoding.md R70, R72, R74, R77). -/

namespace Sys2Proof

/-- A slice is 0 exactly when every bit of the value in its range is 0. -/
theorem extractLsb'_eq_zero_iff {n : Nat} (v : BitVec n) (lo len : Nat) :
    v.extractLsb' lo len = 0#len ↔ ∀ i, lo ≤ i → i < lo + len → v.getLsbD i = false := by
  constructor
  · intro h i hlo hhi
    have hbit := congrArg (·.getLsbD (i - lo)) h
    simpa [show i - lo < len by omega, show lo + (i - lo) = i by omega] using hbit
  · intro h
    apply BitVec.eq_of_getLsbD_eq
    intro j hj
    simp [hj, h (lo + j) (by omega) (by omega)]

theorem opNumber_operation (op : BitVec 3) (p : Payload) : opNumber (operation op p) = op := by
  obtain ⟨n, rfl, hn⟩ : ∃ n, op = BitVec.ofNat 3 n ∧ n < 8 := ⟨op.toNat, by simp, op.isLt⟩
  interval_cases n <;> rfl

/-- The mask of R77 keeps `op` and `rsv0`, and every bit above the payload bits that the operation uses. -/
theorem decodeMask_eq (op : BitVec 3) :
    decodeMask op = 0xFF#64 ||| (BitVec.allOnes 64 <<< (8 + CmdFields.payloadWidth op)) := by
  revert op
  decide

/-- The match value of R77 is the op number, every other bit 0. -/
theorem decodeMatch_eq (op : BitVec 3) : decodeMatch op = op.setWidth 64 := by
  revert op
  decide

namespace CmdFields

theorem payloadWidth_eq_24_iff (op : BitVec 3) :
    payloadWidth op = 24 ↔ op = 0#3 ∨ op = 1#3 ∨ op = 3#3 ∨ op = 4#3 := by
  revert op
  decide

theorem payloadWidth_eq_12_iff (op : BitVec 3) : payloadWidth op = 12 ↔ op = 2#3 := by
  revert op
  decide

theorem payloadWidth_eq_0_iff (op : BitVec 3) : payloadWidth op = 0 ↔ op = 6#3 ∨ op = 7#3 := by
  revert op
  decide

theorem payloadWidth_cases (op : BitVec 3) :
    payloadWidth op = 0 ∨ payloadWidth op = 12 ∨ payloadWidth op = 24 ∨ payloadWidth op = 48 := by
  revert op
  decide

theorem payloadWidth_le (op : BitVec 3) : payloadWidth op ≤ 48 := by
  have := payloadWidth_cases op
  omega

/-- The payload bits above the used ones, as a slice of the command word. -/
theorem payload_ushiftRight_eq_zero_iff (c : CmdWord) (n : Nat) :
    payload c >>> n = 0#48 ↔ c.extractLsb' (8 + n) (48 - n) = 0#(48 - n) := by
  rw [extractLsb'_eq_zero_iff]
  constructor
  · intro h i hlo hhi
    have hbit := congrArg (·.getLsbD (i - 8 - n)) h
    simpa [payload, show n + (i - 8 - n) < 48 by omega, show 8 + (n + (i - 8 - n)) = i by omega] using hbit
  · intro h
    apply BitVec.eq_of_getLsbD_eq
    intro j hj
    by_cases hn : n + j < 48
    · simp [payload, hn, h (8 + (n + j)) (by omega) (by omega)]
    · simp [payload, hn]

/-- A word is well formed exactly when `rsv0`, `rsv1` and the unused payload bits are 0, as slices of the word. -/
theorem wellFormed_iff (c : CmdWord) :
    wellFormed c = true ↔ c.extractLsb' 3 5 = 0#5 ∧ c.extractLsb' 56 8 = 0#8 ∧
      c.extractLsb' (8 + payloadWidth (op c)) (48 - payloadWidth (op c)) = 0#(48 - payloadWidth (op c)) := by
  simp [wellFormed, rsv0Clear, rsv1Clear, payloadClear, rsv0, rsv1, payload_ushiftRight_eq_zero_iff, and_assoc]

end CmdFields

theorem getLsbD_decodeMask (op : BitVec 3) {i : Nat} (hi : i < 64) :
    (decodeMask op).getLsbD i = decide (i < 8 ∨ 8 + CmdFields.payloadWidth op ≤ i) := by
  have hlow : (0xFF#64).getLsbD i = decide (i < 8) := by
    revert i
    decide
  rw [decodeMask_eq, BitVec.getLsbD_or, hlow, BitVec.getLsbD_shiftLeft, BitVec.getLsbD_allOnes, Bool.eq_iff_iff]
  simp only [Bool.or_eq_true, Bool.and_eq_true, Bool.not_eq_true', decide_eq_true_eq, decide_eq_false_iff_not]
  omega

theorem getLsbD_decodeMatch_op (c : CmdWord) (i : Nat) :
    (decodeMatch (CmdFields.op c)).getLsbD i = (decide (i < 3) && c.getLsbD i) := by
  by_cases h3 : i < 3
  · simp [decodeMatch_eq, CmdFields.op, h3, show i < 64 by omega]
  · simp [decodeMatch_eq, CmdFields.op, h3]

/-- The mask test of R77 is the well-formedness of R74: both say that no bit outside `op` and the used payload is set. -/
theorem and_decodeMask_eq_iff_wellFormed (c : CmdWord) :
    c &&& decodeMask (CmdFields.op c) = decodeMatch (CmdFields.op c) ↔ CmdFields.wellFormed c = true := by
  have hw := CmdFields.payloadWidth_le (CmdFields.op c)
  simp only [CmdFields.wellFormed_iff, extractLsb'_eq_zero_iff]
  constructor
  · intro h
    have hclear : ∀ i, 3 ≤ i → i < 64 → (i < 8 ∨ 8 + CmdFields.payloadWidth (CmdFields.op c) ≤ i) →
        c.getLsbD i = false := by
      intro i h3 hi hmask
      have hbit := congrArg (·.getLsbD i) h
      simpa [getLsbD_decodeMask _ hi, getLsbD_decodeMatch_op, hmask, show ¬ i < 3 by omega] using hbit
    exact ⟨fun i _ _ => hclear i (by omega) (by omega) (by omega),
      fun i _ _ => hclear i (by omega) (by omega) (by omega),
      fun i _ _ => hclear i (by omega) (by omega) (by omega)⟩
  · rintro ⟨hrsv0, hrsv1, hpayload⟩
    apply BitVec.eq_of_getLsbD_eq
    intro i hi
    rw [BitVec.getLsbD_and, getLsbD_decodeMask _ hi, getLsbD_decodeMatch_op]
    by_cases hop : i < 3
    · simp [hop, show i < 8 by omega]
    by_cases hlow : i < 8
    · simp [hop, hrsv0 i (by omega) (by omega)]
    by_cases hused : i < 8 + CmdFields.payloadWidth (CmdFields.op c)
    · simp [hop, hlow, hused]
    by_cases hhigh : i < 56
    · simp [hpayload i (by omega) (by omega)]
    · simp [hrsv1 i (by omega) (by omega)]

/-- What the decoder answers, in the terms of R74. -/
theorem decode_eq (c : CmdWord) :
    decode c = if CmdFields.wellFormed c = true then .ok (operation (CmdFields.op c) (CmdFields.payload c))
      else .error (.illegalCommand c) := by
  simp only [decode, and_decodeMask_eq_iff_wellFormed]

/-- A bit that R70 or R72 requires to be 0 is set, written out by the op number: three-byte and two-word payloads end at
`P[23]`, the payload of ENCW at `P[11]`, DEC48 uses the whole payload and the stream operations none of it. -/
def CmdFields.ReservedSet (c : CmdWord) : Prop :=
  let op := c.extractLsb' 0 3
  c.extractLsb' 3 5 ≠ 0#5 ∨ c.extractLsb' 56 8 ≠ 0#8 ∨
    ((op = 0#3 ∨ op = 1#3 ∨ op = 3#3 ∨ op = 4#3) ∧ c.extractLsb' 32 24 ≠ 0#24) ∨
    (op = 2#3 ∧ c.extractLsb' 20 36 ≠ 0#36) ∨
    ((op = 6#3 ∨ op = 7#3) ∧ c.extractLsb' 8 48 ≠ 0#48)

theorem CmdFields.reservedSet_iff (c : CmdWord) : ReservedSet c ↔ ¬ wellFormed c = true := by
  have hop : c.extractLsb' 0 3 = op c := rfl
  have hwidth := payloadWidth_cases (op c)
  rw [ReservedSet, wellFormed_iff, hop, ← payloadWidth_eq_24_iff, ← payloadWidth_eq_12_iff, ← payloadWidth_eq_0_iff,
    not_and_or, not_and_or]
  refine or_congr_right (or_congr_right ?_)
  generalize payloadWidth (op c) = w at hwidth
  obtain rfl | rfl | rfl | rfl := hwidth <;> simp

end Sys2Proof

namespace Sys2Proof.Machine

/-- An instance that is not busy refuses an illegal command word, whatever else it holds (R163). -/
theorem step_of_decode_error {s : State} {p : Presented} {rest : List Presented} {w : CmdWord} (hb : s.busy = false)
    (hc : s.commands = p :: rest) (hd : decode p.word = .error (.illegalCommand w)) :
    step s = .refused (.illegalCommand w) := by
  simp only [step_not_busy hb, hc, hd]

/-- Settles O3: `decode` tells words apart by `CmdFields.wellFormed`, whose negation is the set of R74. -/
theorem reservedBitsAreIllegal : Obligations.ReservedBitsAreIllegal := by
  intro c
  change (CmdFields.ReservedSet c → _) ∧ (¬ CmdFields.ReservedSet c → _)
  rw [CmdFields.reservedSet_iff, not_not]
  constructor
  · intro hill
    have hd : decode c = .error (.illegalCommand c) := by rw [decode_eq, if_neg hill]
    exact ⟨hd, fun s b rest hb hc => step_of_decode_error hb hc hd⟩
  · intro hwf
    have hd : decode c = .ok (operation (CmdFields.op c) (CmdFields.payload c)) := by rw [decode_eq, if_pos hwf]
    exact ⟨_, hd, opNumber_operation _ _⟩

end Sys2Proof.Machine
end

section
/-! SUPPORT. Slices of a concatenation (00_scope.md R11): what a slice of `{hi, lo}` reads, and when a value is
`{hi, lo}`. -/

namespace Sys2Proof.Bits

/-- A slice that stays in the low part. -/
@[simp] theorem extractLsb'_cat_low {n m k start len : Nat} (hi : BitVec n) (lo : BitVec m) (h : n + m = k)
    (hlen : start + len ≤ m) : (cat k hi lo h).extractLsb' start len = lo.extractLsb' start len := by
  subst h
  exact BitVec.extractLsb'_append_eq_of_add_le hlen

/-- A slice that stays in the high part. -/
@[simp] theorem extractLsb'_cat_high {n m k start len : Nat} (hi : BitVec n) (lo : BitVec m) (h : n + m = k)
    (hstart : m ≤ start) : (cat k hi lo h).extractLsb' start len = hi.extractLsb' (start - m) len := by
  subst h
  exact BitVec.extractLsb'_append_eq_of_le hstart

/-- A slice of a slice that stays inside it. -/
@[simp] theorem extractLsb'_extractLsb' {w start len start' len' : Nat} (v : BitVec w) (hlen : start + len ≤ len') :
    (v.extractLsb' start' len').extractLsb' start len = v.extractLsb' (start' + start) len := by
  apply BitVec.eq_of_getLsbD_eq
  intro i hi
  simp [hi, show start + i < len' by omega, Nat.add_assoc]

/-- Two adjacent slices put together are one slice. -/
@[simp] theorem cat_extractLsb'_adjacent {w n m k start mid : Nat} (v : BitVec w) (h : n + m = k)
    (hmid : mid = start + m) : cat k (v.extractLsb' mid n) (v.extractLsb' start m) h = v.extractLsb' start k := by
  subst h
  exact BitVec.extractLsb'_append_extractLsb'_eq_extractLsb' hmid

/-- A value is `{hi, lo}` exactly when its two slices are `hi` and `lo`. -/
theorem eq_cat_iff {n m k : Nat} {v : BitVec k} {hi : BitVec n} {lo : BitVec m} (h : n + m = k) :
    v = cat k hi lo h ↔ v.extractLsb' m n = hi ∧ v.extractLsb' 0 m = lo := by
  constructor
  · rintro rfl
    simp
  · rintro ⟨rfl, rfl⟩
    simp

theorem cat_zero_ushiftRight {n m k : Nat} (lo : BitVec m) (h : n + m = k) : cat k 0#n lo h >>> m = 0#k := by
  apply BitVec.eq_of_getLsbD_eq
  simp

theorem extractLsb'_eq_zero_of_ushiftRight {n m k : Nat} {v : BitVec k} (hv : v >>> m = 0#k) :
    v.extractLsb' m n = 0#n := by
  have hslice : v.extractLsb' m n = (v >>> m).extractLsb' 0 n := by
    apply BitVec.eq_of_getLsbD_eq
    simp
  rw [hslice, hv, BitVec.extractLsb'_zero]

/-- A value without bits above bit `m` is `{0, lo}` for its own low slice. -/
theorem eq_cat_zero_of_ushiftRight {n m k : Nat} {v : BitVec k} (h : n + m = k) (hv : v >>> m = 0#k) :
    v = cat k 0#n (v.extractLsb' 0 m) h :=
  (eq_cat_iff h).mpr ⟨extractLsb'_eq_zero_of_ushiftRight hv, rfl⟩

end Sys2Proof.Bits
end

section
/-! SUPPORT. Which command words decode to an operation (30_encoding.md R70, R72, R77): the payload that `operation`
takes apart is the one `encodePayload` writes back, when its unused bits are 0. -/

namespace Sys2Proof

open Sys2Proof.Bits

@[simp] theorem cat3_payloadByte (p : Payload) :
    cat3 (payloadByte p 0) (payloadByte p 1) (payloadByte p 2) = p.extractLsb' 0 24 := by
  simp [cat3, payloadByte]

theorem operation_encodePayload (i : Instr) : operation (opNumber i) (encodePayload i) = i := by
  cases i <;> simp [operation, opNumber, encodePayload, payloadByte, cat3, cat6]

/-- The payload bits that an operation does not use are written 0. -/
theorem encodePayload_ushiftRight (i : Instr) : encodePayload i >>> CmdFields.payloadWidth (opNumber i) = 0#48 := by
  cases i with
  | dec48 => exact BitVec.ushiftRight_eq_zero (Nat.le_refl 48)
  | senc | sdec => rfl
  | _ => exact cat_zero_ushiftRight _ _

/-- Each operand field is a slice of the payload, and the fields and the unused bits make up the whole payload. -/
theorem encodePayload_operation {op : BitVec 3} {p : Payload} (h : p >>> CmdFields.payloadWidth op = 0#48) :
    p = encodePayload (operation op p) := by
  obtain ⟨n, rfl, hn⟩ : ∃ n, op = BitVec.ofNat 3 n ∧ n < 8 := ⟨op.toNat, by simp, op.isLt⟩
  have used24 (hw : p >>> 24 = 0#48) : p = cat 48 0#24 (p.extractLsb' 0 24) :=
    eq_cat_zero_of_ushiftRight (by rfl) hw
  interval_cases n
  · simpa [operation, encodePayload] using used24 h
  · simpa [operation, encodePayload] using used24 h
  · exact eq_cat_zero_of_ushiftRight (by rfl) h
  · simpa [operation, encodePayload] using used24 h
  · simpa [operation, encodePayload] using used24 h
  · simp [operation, encodePayload, cat6, cat3, payloadByte]
  · simpa [CmdFields.payloadWidth, operation, encodePayload] using h
  · simpa [CmdFields.payloadWidth, operation, encodePayload] using h

/-- A word is well formed exactly when its reserved fields and its unused payload bits are 0, field by field. -/
theorem CmdFields.wellFormed_iff_fields (c : CmdWord) :
    wellFormed c = true ↔ rsv0 c = 0#5 ∧ rsv1 c = 0#8 ∧ payload c >>> payloadWidth (op c) = 0#48 := by
  simp [wellFormed, rsv0Clear, rsv1Clear, payloadClear, and_assoc]

/-- A word decodes to `i` exactly when its four fields are those of `encode i`. -/
theorem decode_eq_ok_iff {c : CmdWord} {i : Instr} :
    decode c = .ok i ↔ CmdFields.op c = opNumber i ∧ CmdFields.rsv0 c = 0#5 ∧
      CmdFields.payload c = encodePayload i ∧ CmdFields.rsv1 c = 0#8 := by
  rw [decode_eq]
  constructor
  · intro h
    split at h
    next hc =>
      obtain ⟨hrsv0, hrsv1, hunused⟩ := (CmdFields.wellFormed_iff_fields c).mp hc
      cases h
      exact ⟨(opNumber_operation _ _).symm, hrsv0, encodePayload_operation hunused, hrsv1⟩
    next => cases h
  · rintro ⟨hop, hrsv0, hpayload, hrsv1⟩
    have hunused := encodePayload_ushiftRight i
    rw [← hop, ← hpayload] at hunused
    rw [if_pos ((CmdFields.wellFormed_iff_fields c).mpr ⟨hrsv0, hrsv1, hunused⟩), hop, hpayload,
      operation_encodePayload]

end Sys2Proof

namespace Sys2Proof.Machine

open Sys2Proof.Bits

/-- To say how an operation is spelled it is enough to say which payload is the one it is encoded with. -/
theorem spelledBy_of_payload_iff {i : Instr} {fits : Payload → Prop} (h : ∀ p, fits p ↔ p = encodePayload i) :
    SpelledBy i (opNumber i) fits := fun c => by
  rw [decode_eq_ok_iff, ← h]
  rfl

/-- The one payload that fits is the one that `encodePayload` writes for SPLIT3, DECW and ENC24. -/
theorem threeBytes_iff {b0 b1 b2 : Byte} {p : Payload} :
    ThreeBytes b0 b1 b2 p ↔ p = cat 48 0#24 (cat3 b0 b1 b2) := by
  simp [ThreeBytes, cat3, eq_cat_iff, and_comm, and_assoc]

end Sys2Proof.Machine
end

section
/-! SUPPORT. The BitPacker: SPLIT3, JOIN3 and the fragment fields (40_bitpacker.md R100 to R106). -/

namespace Sys2Proof.Machine

open Sys2Proof.Bits

theorem exec_split3 (b0 b1 b2 : Byte) (s : State) :
    exec (.split3 b0 b1 b2) s = .next { s with res := some (wordsResponse (split3 ⟨b0, b1, b2⟩)) } := rfl

theorem exec_join3 (w0 w1 : DataWord) (s : State) :
    exec (.join3 w0 w1) s = .next { s with res := some (dataResponse (join3 ⟨w0, w1⟩)) } := rfl

theorem wordsOf_split3 (b : DataBlock) : WordsOf b.b0 b.b1 b.b2 (split3 b).w0 (split3 b).w1 := by
  simp [WordsOf, split3]

theorem wordsOf_join3 (p : WordPair) : WordsOf (join3 p).b0 (join3 p).b1 (join3 p).b2 p.w0 p.w1 := by
  simp [WordsOf, join3]

theorem wordsResponse_fields (p : WordPair) :
    (wordsResponse p).extractLsb' 0 12 = p.w0 ∧ (wordsResponse p).extractLsb' 12 12 = p.w1 ∧
      (wordsResponse p).extractLsb' 24 40 = 0#40 := by
  simp [wordsResponse]

theorem dataResponse_fields (b : DataBlock) :
    (dataResponse b).extractLsb' 0 8 = b.b0 ∧ (dataResponse b).extractLsb' 8 8 = b.b1 ∧
      (dataResponse b).extractLsb' 16 8 = b.b2 ∧ (dataResponse b).extractLsb' 24 40 = 0#40 := by
  simp [dataResponse, cat3]

@[simp] theorem join3_split3 (b : DataBlock) : join3 (split3 b) = b := by
  simp [join3, split3]

@[simp] theorem split3_join3 (p : WordPair) : split3 (join3 p) = p := by
  simp [join3, split3]

@[simp] theorem fragData_packFragment (d : DataWord) (r : Redundancy) : fragData (packFragment d r) = d := by
  simp [fragData, packFragment]

@[simp] theorem fragRed_packFragment (d : DataWord) (r : Redundancy) : fragRed (packFragment d r) = r := by
  simp [fragRed, packFragment]

/-- The slice `v[6:0]` written back under a 0 is `v` with its top bit cleared. -/
theorem cat_zero_extractLsb'_seven (v : Byte) : cat 8 0#1 (v.extractLsb' 0 7) = v &&& 0x7F#8 := by
  symm
  rw [eq_cat_iff, BitVec.extractLsb'_and, BitVec.extractLsb'_and]
  exact ⟨BitVec.and_zero, BitVec.and_allOnes⟩

theorem packFragment_fragData_fragRed (f : Fragment) :
    packFragment (fragData f) (fragRed f) = { f with f2 := f.f2 &&& 0x7F#8 } := by
  simp [fragData, fragRed, packFragment, cat_zero_extractLsb'_seven]

/-- Settles O16: `threeBytes_iff` gives the encoding, and the slices of the response are the two words of `split3`. -/
theorem split3SplitsTheBlock : Obligations.Split3SplitsTheBlock := by
  intro b0 b1 b2
  refine ⟨spelledBy_of_payload_iff fun _ => threeBytes_iff, fun s => ?_⟩
  exact ⟨_, _, _, wordsOf_split3 ⟨b0, b1, b2⟩, exec_split3 b0 b1 b2 s, wordsResponse_fields _⟩

/-- Settles O17: the payload is its three slices (`eq_cat_iff`), and the slices of the response are the bytes of
`join3`. -/
theorem join3JoinsTheWords : Obligations.Join3JoinsTheWords := by
  intro w0 w1
  refine ⟨spelledBy_of_payload_iff fun p => ?_, fun s => ⟨_, exec_join3 w0 w1 s, ?_⟩⟩
  · simp [encodePayload, eq_cat_iff, and_comm, and_assoc]
  · obtain ⟨h0, h1, h2, hrest⟩ := dataResponse_fields (join3 ⟨w0, w1⟩)
    rw [h0, h1, h2]
    exact ⟨wordsOf_join3 ⟨w0, w1⟩, hrest⟩

/-- Settles O18: every value that one side takes apart, the other puts together from adjacent slices. -/
theorem splitAndJoinAreInverse : Obligations.SplitAndJoinAreInverse := ⟨join3_split3, split3_join3⟩

/-- Settles O19: PackFragment places every bit of `d` and `r`, and writes 0 to `f2[7]`, which neither field function
reads. -/
theorem fragmentFieldsInvertPackFragment : Obligations.FragmentFieldsInvertPackFragment :=
  ⟨fun d r => ⟨fragData_packFragment d r, fragRed_packFragment d r⟩, packFragment_fragData_fragRed⟩

end Sys2Proof.Machine
end

section
/-! SUPPORT. XORs over the set bits of a value, and slices that are 0 (00_scope.md R11). -/

namespace Sys2Proof.Bits

/-- A slice is 0 when its two halves are. -/
theorem extractLsb'_eq_zero_of_halves {w n m k start mid : Nat} {v : BitVec w} (h : n + m = k)
    (hmid : mid = start + m) (hhi : v.extractLsb' mid n = 0#n) (hlo : v.extractLsb' start m = 0#m) :
    v.extractLsb' start k = 0#k := by
  rw [← cat_extractLsb'_adjacent v h hmid, hhi, hlo]
  apply BitVec.eq_of_getLsbD_eq
  simp

/-- The XOR of the powers `1 << i` over the set bits `i` of `v` below `n`. -/
def xorOfSetBits {w : Nat} (v : BitVec w) (n : Nat) : BitVec w :=
  (List.range n).foldl (fun x i => if v.getLsbD i then x ^^^ BitVec.twoPow w i else x) 0#w

theorem xorOfSetBits_succ {w : Nat} (v : BitVec w) (n : Nat) :
    xorOfSetBits v (n + 1) =
      if v.getLsbD n then xorOfSetBits v n ^^^ BitVec.twoPow w n else xorOfSetBits v n := by
  simp [xorOfSetBits, List.range_succ]

theorem getLsbD_xorOfSetBits {w : Nat} (v : BitVec w) (n j : Nat) :
    (xorOfSetBits v n).getLsbD j = (decide (j < n) && v.getLsbD j) := by
  induction n with
  | zero => simp [xorOfSetBits]
  | succ n ih =>
    rw [xorOfSetBits_succ]
    by_cases hj : j = n
    · subst hj
      cases hv : v.getLsbD j
      · simp [ih]
      · rw [if_pos rfl, BitVec.getLsbD_xor, ih, BitVec.getLsbD_twoPow]
        simp [BitVec.lt_of_getLsbD hv]
    · have hlt : j < n + 1 ↔ j < n := by omega
      cases v.getLsbD n <;> simp [ih, hlt, Ne.symm hj]

/-- A value is the XOR of the powers at its set bits. -/
theorem xorOfSetBits_width {w : Nat} (v : BitVec w) : xorOfSetBits v w = v := by
  apply BitVec.eq_of_getLsbD_eq
  intro j hj
  rw [getLsbD_xorOfSetBits, decide_eq_true hj, Bool.true_and]

end Sys2Proof.Bits
end

section
/-! SUPPORT. The encoder: ENCW, ENC24, and what the encoding keeps of the data (41_encoder.md R110 to R115). -/

namespace Sys2Proof.Machine

open Sys2Proof.Bits

theorem exec_encw (d : DataWord) (s : State) :
    exec (.encw d) s = .next { s with res := some (fragmentResponse (encw s.enc d)) } := rfl

theorem exec_enc24 (b0 b1 b2 : Byte) (s : State) :
    exec (.enc24 b0 b1 b2) s = .next { s with res := some (codeResponse (enc24 s.enc ⟨b0, b1, b2⟩)) } := rfl

/-! The slot of a fragment, by its fields (R62, R67). -/

theorem slot_redundancy (f : Fragment) : (slot f).extractLsb' 0 11 = fragRed f := by
  rw [← cat_extractLsb'_adjacent (n := 3) (m := 8) (slot f) rfl rfl]
  simp [slot, cat3, fragRed]

theorem slot_data (f : Fragment) : (slot f).extractLsb' 11 12 = fragData f := by
  rw [← cat_extractLsb'_adjacent (n := 7) (m := 5) (slot f) rfl rfl]
  simp [slot, cat3, fragData]

theorem slot_unused (f : Fragment) : (slot f).extractLsb' 23 1 = f.f2.extractLsb' 7 1 := by
  simp [slot, cat3]

@[simp] theorem fragRed_encw (enc : DataWord → Redundancy) (d : DataWord) : fragRed (encw enc d) = enc d :=
  fragRed_packFragment d (enc d)

@[simp] theorem fragData_encw (enc : DataWord → Redundancy) (d : DataWord) : fragData (encw enc d) = d :=
  fragData_packFragment d (enc d)

theorem encw_unused (enc : DataWord → Redundancy) (d : DataWord) : (encw enc d).f2.extractLsb' 7 1 = 0#1 := by
  simp [encw, packFragment]

/-- The slot of an encoded word is `{0, codeword}`: its three fields are those of the fragment (R62, R110). -/
theorem slot_encw (enc : DataWord → Redundancy) (d : DataWord) :
    slot (encw enc d) = cat 24 0#1 (codeword enc d) := by
  simp [codeword, combined, eq_cat_iff, slot_redundancy, slot_data, slot_unused, encw_unused]

/-! The responses, by their fields (R71, R72). -/

theorem fragmentResponse_fields (f : Fragment) :
    (fragmentResponse f).extractLsb' 0 11 = fragRed f ∧ (fragmentResponse f).extractLsb' 11 12 = fragData f ∧
      (fragmentResponse f).extractLsb' 23 1 = f.f2.extractLsb' 7 1 ∧
      (fragmentResponse f).extractLsb' 24 40 = 0#40 := by
  simp [fragmentResponse, slot_redundancy, slot_data, slot_unused]

theorem codeResponse_enc24 (enc : DataWord → Redundancy) (b : DataBlock) :
    codeResponse (enc24 enc b) =
      cat 64 0#16 (cat 48 (slot (encw enc (split3 b).w1)) (slot (encw enc (split3 b).w0))) := rfl

theorem codeResponse_enc24_fields (enc : DataWord → Redundancy) (b : DataBlock) :
    let w := codeResponse (enc24 enc b)
    w.extractLsb' 0 11 = enc (split3 b).w0 ∧ w.extractLsb' 11 12 = (split3 b).w0 ∧ w.extractLsb' 23 1 = 0#1 ∧
      w.extractLsb' 24 11 = enc (split3 b).w1 ∧ w.extractLsb' 35 12 = (split3 b).w1 ∧
      w.extractLsb' 47 17 = 0#17 := by
  intro w
  have hw : w = _ := codeResponse_enc24 enc b
  have hunused1 : w.extractLsb' 47 1 = 0#1 := by simp [hw, slot_unused, encw_unused]
  have hrest : w.extractLsb' 48 16 = 0#16 := by simp [hw]
  refine ⟨?_, ?_, ?_, ?_, ?_, extractLsb'_eq_zero_of_halves rfl rfl hrest hunused1⟩
  all_goals simp [hw, slot_redundancy, slot_data, slot_unused, encw_unused]

/-! Zero encodes to zero under a linear table (R114). -/

theorem encw_zero {enc : DataWord → Redundancy} (h : Linear enc) : encw enc 0#12 = ⟨0#8, 0#8, 0#8⟩ := by
  rw [encw, linear_zero h]
  decide

theorem enc24_zero {enc : DataWord → Redundancy} (h : Linear enc) :
    enc24 enc ⟨0#8, 0#8, 0#8⟩ = ⟨0#8, 0#8, 0#8, 0#8, 0#8, 0#8⟩ := by
  have hsplit : split3 ⟨0#8, 0#8, 0#8⟩ = ⟨0#12, 0#12⟩ := by decide
  simp only [enc24, hsplit, encw_zero h, joinFragments]

theorem fragmentResponse_encw_zero {enc : DataWord → Redundancy} (h : Linear enc) :
    fragmentResponse (encw enc 0#12) = 0#64 := by
  rw [encw_zero h]
  decide

theorem codeResponse_enc24_zero {enc : DataWord → Redundancy} (h : Linear enc) :
    codeResponse (enc24 enc ⟨0#8, 0#8, 0#8⟩) = 0#64 := by
  rw [enc24_zero h]
  decide

/-! The code is systematic: where the bytes of a fragment hold the DataWord (R63, R113). -/

theorem encw_f1_data (enc : DataWord → Redundancy) (d : DataWord) :
    (encw enc d).f1.extractLsb' 3 5 = d.extractLsb' 0 5 := by
  simp [encw, packFragment]

theorem encw_f2_data (enc : DataWord → Redundancy) (d : DataWord) {start len : Nat} (h : start + len ≤ 7) :
    (encw enc d).f2.extractLsb' start len = d.extractLsb' (5 + start) len := by
  simp [encw, packFragment, h]

/-- The bytes of a fragment that hold the DataWord `{hi, lo}`, by the bits of `lo` and `hi` (R64, R113). -/
theorem encw_data_bytes (enc : DataWord → Redundancy) (hi : BitVec 4) (lo : Byte) :
    let f := encw enc (cat 12 hi lo)
    f.f1.extractLsb' 3 5 = lo.extractLsb' 0 5 ∧ f.f2.extractLsb' 0 3 = lo.extractLsb' 5 3 ∧
      f.f2.extractLsb' 3 4 = hi := by
  simp [encw_f1_data, encw_f2_data]

/-! Linearity (R115). -/

theorem codeword_xor {enc : DataWord → Redundancy} (h : Linear enc) (a b : DataWord) :
    codeword enc (a ^^^ b) = codeword enc a ^^^ codeword enc b := by
  rw [codeword, h a b, codeword, codeword, combined_xor]

/-- A linear table is given by its basis entries: it takes the XOR of powers that `d` is to the XOR of their entries. -/
theorem linear_eq_foldl_basis {enc : DataWord → Redundancy} (h : Linear enc) (d : DataWord) :
    enc d = (List.range 12).foldl
      (fun r i => if d.getLsbD i then r ^^^ enc (BitVec.twoPow 12 i) else r) 0#11 := by
  have hstep (x : DataWord) (i : Nat) :
      (if d.getLsbD i then enc x ^^^ enc (BitVec.twoPow 12 i) else enc x) =
        enc (if d.getLsbD i then x ^^^ BitVec.twoPow 12 i else x) := by
    rw [apply_ite enc, h x]
  rw [← linear_zero h, List.foldl_hom enc hstep]
  exact congrArg enc (xorOfSetBits_width d).symm

/-- Settles O20: the payload is its two slices (`eq_cat_iff`), and the response holds the slot field by field. -/
theorem encwEncodesTheWord : Obligations.EncwEncodesTheWord := by
  intro d
  refine ⟨spelledBy_of_payload_iff fun p => ?_, fun s => ⟨_, exec_encw d s, ?_⟩⟩
  · simp [encodePayload, eq_cat_iff, and_comm]
  · obtain ⟨hred, hdata, hunused, hrest⟩ := fragmentResponse_fields (encw s.enc d)
    rw [fragRed_encw] at hred
    rw [fragData_encw] at hdata
    rw [encw_unused] at hunused
    refine ⟨hred, hdata, extractLsb'_eq_zero_of_halves rfl rfl hrest hunused, ?_⟩
    rintro hwf rfl
    exact fragmentResponse_encw_zero hwf.linear

/-- Settles O21: the response is the slots of the two words of `split3`, one above the other, field by field. -/
theorem enc24EncodesTheBlock : Obligations.Enc24EncodesTheBlock := by
  intro b0 b1 b2
  refine ⟨spelledBy_of_payload_iff fun _ => threeBytes_iff, fun s => ?_⟩
  refine ⟨_, _, _, wordsOf_split3 ⟨b0, b1, b2⟩, exec_enc24 b0 b1 b2 s, ?_⟩
  obtain ⟨hred0, hdata0, hunused0, hred1, hdata1, hrest⟩ := codeResponse_enc24_fields s.enc ⟨b0, b1, b2⟩
  refine ⟨hred0, hdata0, hunused0, hred1, hdata1, hrest, ?_⟩
  rintro hwf rfl rfl rfl
  exact codeResponse_enc24_zero hwf.linear

/-- Settles O22: PackFragment copies every data bit, and `split3` puts `{b1[3:0], b0}` and `{b1[7:4], b2}` into the two
DataWords. -/
theorem encodingIsSystematic : Obligations.EncodingIsSystematic := by
  intro enc
  refine ⟨fun d => ⟨fragData_encw enc d, by rw [slot_data, fragData_encw]⟩, fun b => ?_⟩
  obtain ⟨h1, h2, h3⟩ := encw_data_bytes enc (b.b1.extractLsb' 0 4) b.b0
  obtain ⟨h4, h5, h6⟩ := encw_data_bytes enc (b.b1.extractLsb' 4 4) b.b2
  exact ⟨h1, h2, h3, h4, h5, h6⟩

/-- Settles O24: the slot is `{0, codeword}`, and both fields of a codeword are linear in `d`. -/
theorem encoderIsLinear : Obligations.EncoderIsLinear := by
  intro enc dec hwf
  refine ⟨fun a b => ?_, linear_eq_foldl_basis hwf.linear⟩
  rw [slot_encw, slot_encw, slot_encw, cat_xor, codeword_xor hwf.linear, BitVec.xor_self]

/-- Settles O23: a linear table holds 0 at 0, and packing 0 with 0 gives zero bytes. -/
theorem zeroEncodesToZero : Obligations.ZeroEncodesToZero := by
  intro s hwf
  refine ⟨linear_zero hwf.linear, ?_, ?_⟩
  · rw [exec_encw, fragmentResponse_encw_zero hwf.linear]
  · rw [exec_enc24, codeResponse_enc24_zero hwf.linear]

end Sys2Proof.Machine
end

section
/-! SUPPORT. The decoder: DECW and DEC48, their results, and what they do with a received error pattern under a linear
table and under well-formed tables (42_decoder.md R126 to R133). -/

namespace Sys2Proof.Machine

open Sys2Proof.Bits

theorem exec_decw (f0 f1 f2 : Byte) (s : State) :
    exec (.decw f0 f1 f2) s = .next { s with res := some (decodedResponse (decw s.enc s.dec ⟨f0, f1, f2⟩)) } := rfl

theorem exec_dec48 (r0 r1 r2 r3 r4 r5 : Byte) (s : State) :
    exec (.dec48 r0 r1 r2 r3 r4 r5) s =
      let x := decw s.enc s.dec ⟨r0, r1, r2⟩
      let y := decw s.enc s.dec ⟨r3, r4, r5⟩
      .next { s with res := some (blockDecodedResponse (join3 ⟨x.data, y.data⟩) (blockCount x.flag y.flag)) } := rfl

/-! DECW by the received DataWord and redundancy of its fragment (R67, R121 to R126). -/

theorem receivedAs_fragment (f : Fragment) : ReceivedAs f.f0 f.f1 f.f2 (fragData f) (fragRed f) := by
  simp [ReceivedAs, fragData, fragRed]

theorem decw_data (enc : DataWord → Redundancy) (dec : Syndrome → Mask) (f : Fragment) :
    (decw enc dec f).data = fragData f ^^^ maskData (dec (syndrome enc f)) := by
  simp [decw, corrected, correctionMask, maskData_xor]

theorem decw_flag (enc : DataWord → Redundancy) (dec : Syndrome → Mask) (f : Fragment) :
    (decw enc dec f).flag = correctionFlag (dec (syndrome enc f)) := rfl

/-- DECW reads a fragment only through its DataWord and its redundancy. -/
theorem decw_congr (enc : DataWord → Redundancy) (dec : Syndrome → Mask) {f g : Fragment}
    (hdata : fragData f = fragData g) (hred : fragRed f = fragRed g) : decw enc dec f = decw enc dec g := by
  simp only [decw, corrected, correctionMask, syndrome, hdata, hred]

/-! The responses, by their fields (R71, R72). -/

theorem decodedResponse_fields (x : Decoded) :
    (decodedResponse x).extractLsb' 0 12 = x.data ∧ (decodedResponse x).extractLsb' 12 36 = 0#36 ∧
      (decodedResponse x).getLsbD 48 = x.flag ∧ (decodedResponse x).extractLsb' 49 15 = 0#15 := by
  simp [decodedResponse]

theorem blockDecodedResponse_fields (b : DataBlock) (cnt : BitVec 2) :
    let w := blockDecodedResponse b cnt
    w.extractLsb' 0 8 = b.b0 ∧ w.extractLsb' 8 8 = b.b1 ∧ w.extractLsb' 16 8 = b.b2 ∧
      w.extractLsb' 24 24 = 0#24 ∧ w.extractLsb' 48 2 = cnt ∧ w.extractLsb' 50 14 = 0#14 := by
  simp [blockDecodedResponse, cat3]

theorem correctionFlag_toNat (m : Mask) : (correctionFlag m).toNat = if m = 0#23 then 0 else 1 := by
  by_cases hm : m = 0#23 <;> simp [correctionFlag, hm]

/-- The response of DEC48, by the masks of its two fragments. -/
theorem dec48_response_fields (enc : DataWord → Redundancy) (dec : Syndrome → Mask) (f g : Fragment) :
    let x := decw enc dec f
    let y := decw enc dec g
    let w := blockDecodedResponse (join3 ⟨x.data, y.data⟩) (blockCount x.flag y.flag)
    WordsOf (w.extractLsb' 0 8) (w.extractLsb' 8 8) (w.extractLsb' 16 8)
        (fragData f ^^^ maskData (dec (syndrome enc f))) (fragData g ^^^ maskData (dec (syndrome enc g))) ∧
      w.extractLsb' 24 24 = 0#24 ∧
      (w.extractLsb' 48 2).toNat =
        (if dec (syndrome enc f) = 0#23 then 0 else 1) + (if dec (syndrome enc g) = 0#23 then 0 else 1) ∧
      w.extractLsb' 50 14 = 0#14 := by
  intro x y w
  obtain ⟨h0, h1, h2, hmid, hcnt, hhigh⟩ :=
    blockDecodedResponse_fields (join3 ⟨x.data, y.data⟩) (blockCount x.flag y.flag)
  refine ⟨?_, hmid, ?_, hhigh⟩
  · rw [h0, h1, h2, ← decw_data, ← decw_data]
    exact wordsOf_join3 ⟨x.data, y.data⟩
  · rw [hcnt, blockCount_toNat, ← correctionFlag_toNat, ← correctionFlag_toNat, ← decw_flag, ← decw_flag]

/-! The unused bit `f2[7]` (R132). -/

theorem extractLsb'_xor_unused (v : Byte) : (v ^^^ 0x80#8).extractLsb' 0 7 = v.extractLsb' 0 7 := by
  rw [BitVec.extractLsb'_xor]
  exact BitVec.xor_zero

theorem decw_flip_unused (enc : DataWord → Redundancy) (dec : Syndrome → Mask) (f0 f1 f2 : Byte) :
    decw enc dec ⟨f0, f1, f2 ^^^ 0x80#8⟩ = decw enc dec ⟨f0, f1, f2⟩ :=
  decw_congr enc dec (by simp only [fragData, extractLsb'_xor_unused]) rfl

/-! A fragment received with an error pattern (R128). -/

@[simp] theorem slot_ofSlot (v : Slot) : slot (ofSlot v) = v := by
  simp [slot, ofSlot, cat3]

@[simp] theorem fragData_addError (e : Mask) (f : Fragment) : fragData (addError e f) = fragData f ^^^ maskData e := by
  rw [← slot_data, addError, slot_ofSlot, BitVec.extractLsb'_xor, slot_data]
  simp [maskData]

@[simp] theorem fragRed_addError (e : Mask) (f : Fragment) : fragRed (addError e f) = fragRed f ^^^ maskRed e := by
  rw [← slot_redundancy, addError, slot_ofSlot, BitVec.extractLsb'_xor, slot_redundancy]
  simp [maskRed]

theorem syndrome_addError_encw {enc : DataWord → Redundancy} (h : Linear enc) (d : DataWord) (e : Mask) :
    syndrome enc (addError e (encw enc d)) = synd enc e := by
  calc syndrome enc (addError e (encw enc d))
      = (enc d ^^^ enc (maskData e)) ^^^ (enc d ^^^ maskRed e) := by simp [syndrome, h d]
    _ = (enc d ^^^ enc d) ^^^ synd enc e := by rw [synd]; ac_rfl
    _ = synd enc e := by simp

/-- What DECW makes of an encoded word that was received with the error `e`: the decoded slot differs from the sent one
by `e ^ DEC_TABLE[synd(e)]` (R131 (c)). -/
theorem decw_addError_encw {enc : DataWord → Redundancy} (h : Linear enc) (dec : Syndrome → Mask) (d : DataWord)
    (e : Mask) :
    decw enc dec (addError e (encw enc d)) =
      ⟨d ^^^ maskData (e ^^^ dec (synd enc e)), correctionFlag (dec (synd enc e))⟩ := by
  have hdata := decw_data enc dec (addError e (encw enc d))
  have hflag := decw_flag enc dec (addError e (encw enc d))
  rw [syndrome_addError_encw h] at hdata hflag
  rw [fragData_addError, fragData_encw, BitVec.xor_assoc, ← maskData_xor] at hdata
  rw [← hdata, ← hflag]

/-! Codewords and the zero syndrome (R129, R133). -/

theorem codeword_zero {enc : DataWord → Redundancy} (h : Linear enc) : codeword enc 0#12 = 0#23 := by
  rw [codeword, linear_zero h]
  decide

theorem synd_zero {enc : DataWord → Redundancy} (h : Linear enc) : synd enc 0#23 = 0#11 := by
  rw [synd, show maskData 0#23 = 0#12 by decide, linear_zero h]
  decide

theorem synd_eq_zero_iff {enc : DataWord → Redundancy} {e : Mask} :
    synd enc e = 0#11 ↔ ∃ c : DataWord, e = codeword enc c := by
  constructor
  · intro h
    exact ⟨_, codeword_of_synd_zero h⟩
  · rintro ⟨c, rfl⟩
    simp [synd, codeword]

section
variable {enc : DataWord → Redundancy} {dec : Syndrome → Mask}

theorem TablesWF.dec_eq_zero_iff (h : TablesWF enc dec) {x : Syndrome} : dec x = 0#23 ↔ x = 0#11 := by
  constructor
  · intro hx
    rw [← h.synd_dec x, hx, synd_zero h.linear]
  · rintro rfl
    rw [← synd_zero h.linear]
    exact h.dec_synd (by decide)

theorem TablesWF.correctionFlag_dec_eq_false (h : TablesWF enc dec) {x : Syndrome} :
    correctionFlag (dec x) = false ↔ x = 0#11 :=
  correctionFlag_eq_false.trans h.dec_eq_zero_iff

/-- The corrector moves every pattern to a codeword: `DEC_TABLE` holds a pattern of the same syndrome (R131 (c)). -/
theorem TablesWF.xor_dec_synd (h : TablesWF enc dec) (e : Mask) :
    e ^^^ dec (synd enc e) = codeword enc (maskData (e ^^^ dec (synd enc e))) :=
  codeword_of_synd_zero (by rw [h.linear.synd_xor, h.synd_dec, BitVec.xor_self])

/-- A pattern of weight 4 or more is not the one that the table holds at its syndrome, so the corrector leaves a
nonzero codeword. -/
theorem TablesWF.maskData_xor_dec_synd_ne_zero (h : TablesWF enc dec) {e : Mask} (he : 4 ≤ popcount e) :
    maskData (e ^^^ dec (synd enc e)) ≠ 0#12 := by
  intro hzero
  have hxor := h.xor_dec_synd e
  rw [hzero, codeword_zero h.linear] at hxor
  have hweight := h.dec_weight (synd enc e)
  rw [← BitVec.xor_eq_zero_iff.mp hxor] at hweight
  omega

theorem TablesWF.seven_le_of_codeword (h : TablesWF enc dec) {e : Mask} (he : e ≠ 0#23)
    (hc : ∃ c : DataWord, e = codeword enc c) : 7 ≤ popcount e := by
  obtain ⟨c, rfl⟩ := hc
  refine h.distance c ?_
  rintro rfl
  exact he (codeword_zero h.linear)

end

/-- Settles O25: DECW reads its fragment through `fragData` and `fragRed`, and the response holds the two results
field by field. -/
theorem decwDecodesTheFragment : Obligations.DecwDecodesTheFragment := by
  intro f0 f1 f2
  refine ⟨spelledBy_of_payload_iff fun _ => threeBytes_iff, fun s => ?_⟩
  obtain ⟨hdata, hlow, hflag, hhigh⟩ := decodedResponse_fields (decw s.enc s.dec ⟨f0, f1, f2⟩)
  rw [decw_data] at hdata
  rw [decw_flag] at hflag
  refine ⟨_, _, _, _, receivedAs_fragment ⟨f0, f1, f2⟩, rfl, exec_decw f0 f1 f2 s, hdata, hlow, hflag, hhigh, ?_⟩
  intro hwf
  rw [hflag]
  exact hwf.correctionFlag_dec_eq_false

/-- Settles O26: DEC48 is DECW of each half and `join3` of the two words, and the response holds the block and the
count field by field. -/
theorem dec48DecodesTheBlock : Obligations.Dec48DecodesTheBlock := by
  intro r0 r1 r2 r3 r4 r5
  refine ⟨spelledBy_of_payload_iff fun p => ?_, fun s => ?_⟩
  · simp [encodePayload, cat6, cat3, eq_cat_iff, and_comm, and_assoc]
  · obtain ⟨hwords, hmid, hcnt, hhigh⟩ := dec48_response_fields s.enc s.dec ⟨r0, r1, r2⟩ ⟨r3, r4, r5⟩
    exact ⟨_, _, _, _, _, _, _, receivedAs_fragment ⟨r0, r1, r2⟩, receivedAs_fragment ⟨r3, r4, r5⟩, rfl, rfl,
      exec_dec48 r0 r1 r2 r3 r4 r5 s, hwords, hmid, hcnt, hhigh⟩

/-- Settles O28: the fragment fields do not read `f2[7]`, and each half of DEC48 is a DECW. -/
theorem unusedBitsAreIgnored : Obligations.UnusedBitsAreIgnored := by
  intro s
  refine ⟨fun d => ?_, fun f0 f1 f2 => ?_, fun r0 r1 r2 r3 r4 r5 => ⟨?_, ?_⟩⟩
  · simp [encw, packFragment]
  · rw [exec_decw, exec_decw, decw_flip_unused]
  · simp only [exec_dec48, decw_flip_unused]
  · simp only [exec_dec48, decw_flip_unused]

/-- Settles O29: both received fields are linear in the error, and `ENC_TABLE[d]` cancels. -/
theorem syndromeDependsOnTheErrorAlone : Obligations.SyndromeDependsOnTheErrorAlone :=
  fun _ hl d e => syndrome_addError_encw hl d e

/-- Settles O32: `DEC_TABLE` holds at every syndrome a pattern with that syndrome, and 0 has syndrome 0. -/
theorem flagIsNonzeroSyndrome : Obligations.FlagIsNonzeroSyndrome := by
  intro enc dec hwf
  refine ⟨hwf.dec_eq_zero_iff.mpr rfl, fun x hx => mt hwf.dec_eq_zero_iff.mp hx, fun f => ?_⟩
  simp only [decw_flag, correctionFlag, ne_eq, hwf.dec_eq_zero_iff]

/-- Settles O30: the table holds a pattern of weight at most 3 at its own syndrome, so the corrector cancels it. -/
theorem decodingCorrectsUpToThreeErrors : Obligations.DecodingCorrectsUpToThreeErrors := by
  intro s hwf d e he f
  have hflag : correctionFlag e = decide (1 ≤ popcount e) := by
    rw [correctionFlag, decide_eq_decide, Nat.one_le_iff_ne_zero, ne_eq, ne_eq, popcount_eq_zero_iff]
  rw [exec_decw, decw_addError_encw hwf.linear, hwf.dec_synd he, BitVec.xor_self, hflag]
  simp [maskData]

/-- Settles O31: the decoded word is off by the codeword `e ^ DEC_TABLE[synd(e)]`, which is not 0 at weight 4 or more;
the flag is 0 exactly at syndrome 0, which is where `e` itself is a codeword. -/
theorem beyondTheLimitDecodingIsSilentlyWrong : Obligations.BeyondTheLimitDecodingIsSilentlyWrong := by
  intro s hwf d e he f
  have hflag : correctionFlag (s.dec (synd s.enc e)) = false ↔ ∃ c : DataWord, e = codeword s.enc c :=
    hwf.correctionFlag_dec_eq_false.trans synd_eq_zero_iff
  have hseven (h : correctionFlag (s.dec (synd s.enc e)) = false) : 7 ≤ popcount e :=
    hwf.seven_le_of_codeword he (hflag.mp h)
  have hne (h4 : 4 ≤ popcount e) := hwf.maskData_xor_dec_synd_ne_zero h4
  refine ⟨_, _, by rw [exec_decw, decw_addError_encw hwf.linear], ?_, ?_, hflag, hseven,
    _, hwf.xor_dec_synd e, rfl, hne⟩
  · intro h4 hx
    exact hne h4 (by simpa using hx)
  · intro _ h6
    rw [← Bool.not_eq_false]
    intro hf
    have := hseven hf
    omega

end Sys2Proof.Machine
end

section
/-! SUPPORT. The algorithm of R135: how many patterns it visits, and that from a linear EncodeTable of distance 7 they
reach every syndrome exactly once (42_decoder.md R129, R135). -/

namespace Sys2Proof.Machine

open Sys2Proof.Bits

theorem patterns_length (n w : Nat) : (patterns n w).length = n.choose w := by
  induction n generalizing w with
  | zero => cases w <;> simp [patterns]
  | succ n ih =>
    cases w with
    | zero => simp [patterns]
    | succ w => simp [patterns, ih, Nat.choose_succ_succ, Nat.add_comm]

/-- The two halves of the recursion are told apart by bit `n`. -/
theorem patterns_nodup (n w : Nat) : (patterns n w).Nodup := by
  induction n generalizing w with
  | zero => cases w <;> simp [patterns]
  | succ n ih =>
    cases w with
    | zero => simp [patterns]
    | succ w =>
      refine (ih (w + 1)).append ((ih w).map (add_right_injective _)) ?_
      intro x hlow hhigh
      obtain ⟨y, -, rfl⟩ := List.mem_map.mp hhigh
      have := patterns_lt hlow
      omega

theorem errorPatterns_eq_flatMap :
    errorPatterns = ((List.range 4).flatMap (patterns 23)).map (BitVec.ofNat 23) := by
  simp [errorPatterns, List.range_succ]

/-- `1 + 23 + 253 + 1771 = 2048` (R129). -/
theorem errorPatterns_length : errorPatterns.length = 2 ^ 11 := by
  simp [errorPatterns, patterns_length, Nat.choose]

/-- Patterns of one weight differ as numbers below `2 ^ 23`, and patterns of different weights by their weight. -/
theorem errorPatterns_nodup : errorPatterns.Nodup := by
  rw [errorPatterns_eq_flatMap]
  refine List.Nodup.map_on ?_ (List.nodup_flatMap.mpr ⟨fun w _ => patterns_nodup 23 w, ?_⟩)
  · intro x hx y hy hxy
    obtain ⟨_, -, hx⟩ := List.mem_flatMap.mp hx
    obtain ⟨_, -, hy⟩ := List.mem_flatMap.mp hy
    have := congrArg BitVec.toNat hxy
    rwa [BitVec.toNat_ofNat, BitVec.toNat_ofNat, Nat.mod_eq_of_lt (patterns_lt hx),
      Nat.mod_eq_of_lt (patterns_lt hy)] at this
  · refine List.nodup_range.imp fun hne x hx hx' => hne ?_
    rw [← patterns_weight hx, patterns_weight hx']

section
variable {enc : DataWord → Redundancy}

theorem map_synd_errorPatterns_nodup (hl : Linear enc) (hd : Distance7 enc) :
    (errorPatterns.map (synd enc)).Nodup :=
  errorPatterns_nodup.map_on fun _ ha _ hb =>
    eq_of_synd_eq hl hd (errorPatterns_light ha) (errorPatterns_light hb)

/-- The 2048 syndromes of the visited patterns are different, and there are no others (R129). -/
theorem mem_map_synd_errorPatterns (hl : Linear enc) (hd : Distance7 enc) (x : Syndrome) :
    x ∈ errorPatterns.map (synd enc) := by
  have hcard : (errorPatterns.map (synd enc)).toFinset.card = Fintype.card Syndrome := by
    rw [List.toFinset_card_of_nodup (map_synd_errorPatterns_nodup hl hd), List.length_map, errorPatterns_length,
      ← FinEnum.card_eq_fintypeCard, FinEnum.card_bitVec]
  rw [← List.mem_toFinset, Finset.card_eq_iff_eq_univ _ |>.mp hcard]
  exact Finset.mem_univ x

/-- The entry at `x` is written by exactly one pattern. -/
theorem filter_synd_errorPatterns_length (hl : Linear enc) (hd : Distance7 enc) (x : Syndrome) :
    (errorPatterns.filter fun e => synd enc e = x).length = 1 := by
  rw [← List.count_eq_one_of_mem (map_synd_errorPatterns_nodup hl hd) (mem_map_synd_errorPatterns hl hd x),
    List.count, List.countP_map, List.countP_eq_length_filter]
  rfl

end

/-- What the algorithm writes last at `x` is a visited pattern with syndrome `x`. -/
theorem buildDec_eq_some {enc : DataWord → Redundancy} {x : Syndrome} {e : Mask} (h : buildDec enc x = some e) :
    popcount e ≤ 3 ∧ synd enc e = x := by
  obtain ⟨hmem, hsynd⟩ := List.mem_filter.mp (List.mem_of_getLast? h)
  exact ⟨errorPatterns_light hmem, of_decide_eq_true hsynd⟩

/-- A table of patterns of weight at most 3, each at its own syndrome, is the table of coset leaders. -/
theorem tablesWF_of_light_synd {enc : DataWord → Redundancy} {dec : Syndrome → Mask} (hl : Linear enc)
    (hd : Distance7 enc) (h : ∀ x, popcount (dec x) ≤ 3 ∧ synd enc (dec x) = x) : TablesWF enc dec where
  linear := hl
  distance := hd
  leaders := by
    intro x e
    obtain ⟨hlight, hsynd⟩ := h x
    constructor
    · rintro ⟨he, rfl⟩
      exact eq_of_synd_eq hl hd he hlight hsynd.symm
    · rintro rfl
      exact ⟨hlight, hsynd⟩

/-- Settles O34: the visited patterns have different syndromes, as many as there are, so each entry is written once,
with a pattern of weight at most 3 and that syndrome. -/
theorem builtDecodeTableIsWellFormed : Obligations.BuiltDecodeTableIsWellFormed := by
  intro enc hl hd
  have hone := filter_synd_errorPatterns_length hl hd
  have hbuilt (x : Syndrome) : ∃ e, buildDec enc x = some e := by
    obtain ⟨e, he⟩ := List.length_eq_one_iff.mp (hone x)
    exact ⟨e, by rw [buildDec, he, List.getLast?_singleton]⟩
  choose dec hdec using hbuilt
  exact ⟨hone, dec, hdec, tablesWF_of_light_synd hl hd fun x => buildDec_eq_some (hdec x)⟩

end Sys2Proof.Machine
end

section
/-! SUPPORT. The stream sequencer: SENC and SDEC as one operation on blocks, their launch, a block step, the end, and a
whole run from its launch (43_stream.md R143 to R146, R148). -/

namespace Sys2Proof.Machine

theorem StreamOp.lengthOk_iff {op : StreamOp} {len : Nat} : op.lengthOk len = true ↔ len % op.blockBytes = 0 := by
  simp [StreamOp.lengthOk]

theorem StreamOp.lengthOk_eq_false_iff {op : StreamOp} {len : Nat} :
    op.lengthOk len = false ↔ len % op.blockBytes ≠ 0 := by
  simp [StreamOp.lengthOk]

/-- The operation that launches a stream call. -/
def StreamOp.instr : StreamOp → Instr
  | .senc => .senc
  | .sdec => .sdec

theorem exec_instr (op : StreamOp) (s : State) : exec op.instr s = launch op s := by
  cases op <;> rfl

/-- The count and the bytes of a stream operation's loop over a buffer (R140, R142); SENC counts nothing. -/
def StreamOp.process (op : StreamOp) (enc : DataWord → Redundancy) (dec : Syndrome → Mask) (input : List Byte) :
    Nat × List Byte :=
  match op with
  | .senc => (0, sencBytes enc input)
  | .sdec => sdecBytes enc dec input

/-- The loop stops where no block is left. -/
theorem StreamOp.process_of_short (op : StreamOp) (enc : DataWord → Redundancy) (dec : Syndrome → Mask)
    {l : List Byte} (h : l.length < op.blockBytes) : op.process enc dec l = (0, []) := by
  cases op with
  | senc =>
    match l, h with
    | [], _ | [_], _ | [_, _], _ => rfl
  | sdec =>
    match l, h with
    | [], _ | [_], _ | [_, _], _ | [_, _, _], _ | [_, _, _, _], _ | [_, _, _, _, _], _ => rfl

/-! The launch (R143, R166). -/

theorem launch_of_wrong_length {op : StreamOp} {s : State} (happ : s.buffers.namesAppended s.others = false)
    (hlen : s.buffers.input.length % op.blockBytes ≠ 0) :
    launch op s = .next { s with stream := .faulted (op.violation s.buffers.input.length) } := by
  simp [launch, happ, StreamOp.lengthOk_eq_false_iff.mpr hlen, takeFault]

theorem launch_of_right_length {op : StreamOp} {s : State} (happ : s.buffers.namesAppended s.others = false)
    (hshare : s.buffers.sharesInput s.others = false) (hlen : s.buffers.input.length % op.blockBytes = 0) :
    launch op s = .next { s with stream := .running op 0 0 } := by
  simp [launch, happ, hshare, StreamOp.lengthOk_iff.mpr hlen]

/-- No operation changes the buffers it is passed. -/
theorem exec_next_buffers {i : Instr} {s t : State} (h : exec i s = .next t) : t.buffers = s.buffers := by
  rcases exec_cases i s with ⟨-, -, w, he⟩ | ⟨-, he⟩ | ⟨-, he⟩
  · rw [he] at h
    cases h
    rfl
  all_goals
    rw [he] at h
    rw [launch_next h]

theorem launch_next_stream {op : StreamOp} {s t : State} (h : launch op s = .next t) :
    (∃ v, t.stream = .faulted v) ∨ t.stream = .running op 0 0 := by
  rcases launch_cases op s with ⟨-, he⟩ | ⟨-, -, -, he⟩ | ⟨-, -, he⟩ | ⟨-, -, he⟩ <;> rw [he] at h <;> cases h
  · exact .inr rfl
  · exact .inl ⟨_, rfl⟩

/-- An operation leaves the run as it was, faults, or starts one at its first block. -/
theorem exec_next_stream {i : Instr} {s t : State} (h : exec i s = .next t) :
    t.stream = s.stream ∨ (∃ v, t.stream = .faulted v) ∨ ∃ op, t.stream = .running op 0 0 := by
  rcases exec_cases i s with ⟨-, -, w, he⟩ | ⟨-, he⟩ | ⟨-, he⟩ <;> rw [he] at h
  · cases h
    exact .inl rfl
  all_goals exact .inr ((launch_next_stream h).imp_right fun hrun => ⟨_, hrun⟩)

/-- Settles O35: `launch` tests the length before the call's own sharing; a block step raises `k` by 1 below `n`; and
an instance with a faulted run is not busy, so what follows is `retire` or an operation on its own buffers. -/
theorem launchDecidesTheLength : Obligations.LaunchDecidesTheLength := by
  refine ⟨fun s happ => ⟨?_, ?_, fun hshare => ⟨?_, ?_⟩⟩, ?_, ?_⟩
  · exact launch_of_wrong_length (op := .senc) happ
  · exact launch_of_wrong_length (op := .sdec) happ
  · exact launch_of_right_length (op := .senc) happ hshare
  · exact launch_of_right_length (op := .sdec) happ hshare
  · intro s t op k count hs h
    rw [step_running hs] at h
    obtain ⟨hk, ys, cnt, rfl, -, -⟩ | ⟨hk, rfl⟩ := sequencerStep_cases h
    · exact ⟨k + 1, count + cnt, by omega, hk, .inl rfl⟩
    · exact ⟨k, count, le_rfl, hk.le, .inr rfl⟩
  · intro s t v hs h
    obtain ⟨op, k, count, hrun, -⟩ | ⟨-, -, rfl⟩ | ⟨-, p, rest, i, hc, -, he⟩ := step_cases h
    · rw [hs] at hrun
      cases hrun
    · exact ⟨.inl rfl, .inl rfl⟩
    · exact ⟨exec_next_stream he, .inr ⟨p, rest, hc, exec_next_buffers he⟩⟩

/-! The block step and the end (R144 to R146). -/

theorem step_of_running_senc {s : State} {k count : Nat} (hs : s.stream = .running .senc k count)
    (hk : k < StreamOp.senc.blocks s.buffers.input.length) : step s = sencBlock k count { s with res := none } :=
  (step_running hs).trans (if_pos hk)

theorem step_of_running_sdec {s : State} {k count : Nat} (hs : s.stream = .running .sdec k count)
    (hk : k < StreamOp.sdec.blocks s.buffers.input.length) : step s = sdecBlock k count { s with res := none } :=
  (step_running hs).trans (if_pos hk)

theorem step_of_running_end {s : State} {op : StreamOp} {k count : Nat} (hs : s.stream = .running op k count)
    (hk : k = op.blocks s.buffers.input.length) : step s = .next { s with res := none, stream := .done op k count } :=
  (step_running hs).trans (sequencerStep_end (s := { s with res := none }) hk)

/-- Settles O38: the three bytes at `3k` are inside the input, and `sencBlock_eq` says what the step makes of them. -/
theorem sencBlockStep : Obligations.SencBlockStep := by
  intro s k count hs hk
  rw [step_of_running_senc hs hk]
  exact sencBlock_eq (s := { s with res := none }) hk

/-- Settles O39: the six bytes at `6k` are inside the input, and `sdecBlock_eq` says what the step makes of them. -/
theorem sdecBlockStep : Obligations.SdecBlockStep := by
  intro s k count hs hk
  rw [step_of_running_sdec hs hk]
  exact sdecBlock_eq (s := { s with res := none }) hk

/-- A buffer from offset `n * k` on is the block at `k` and the buffer from the next block on. -/
theorem drop_eq_block_append {l block : List Byte} {n k : Nat} (h : (l.drop (n * k)).take n = block) :
    l.drop (n * k) = block ++ l.drop (n * (k + 1)) := by
  rw [← h, Nat.mul_succ, ← List.drop_drop, List.take_append_drop]

/-- A block step of either operation does one round of its loop. -/
theorem step_of_running_block {s : State} {op : StreamOp} {k count : Nat} (hs : s.stream = .running op k count)
    (hk : k < op.blocks s.buffers.input.length) :
    ∃ cnt ys,
      step s = .next { s with
        res := none, buffers.output := s.buffers.output ++ ys, stream := .running op (k + 1) (count + cnt) } ∧
      op.process s.enc s.dec (s.buffers.input.drop (op.blockBytes * k)) =
        let rest := op.process s.enc s.dec (s.buffers.input.drop (op.blockBytes * (k + 1)))
        (cnt + rest.1, ys ++ rest.2) := by
  cases op with
  | senc =>
    obtain ⟨b0, b1, b2, hbytes, hstep⟩ := sencBlockStep s k count hs hk
    refine ⟨0, _, hstep, ?_⟩
    simp [StreamOp.blockBytes, StreamOp.process, drop_eq_block_append hbytes, sencBytes]
  | sdec =>
    obtain ⟨r0, r1, r2, r3, r4, r5, hbytes, hstep⟩ := sdecBlockStep s k count hs hk
    refine ⟨_, _, hstep, ?_⟩
    simp [StreamOp.blockBytes, StreamOp.process, drop_eq_block_append hbytes, sdecBytes]

/-- At `k = n` less than a block is left of the input. -/
theorem StreamOp.process_drop_blocks (op : StreamOp) (enc : DataWord → Redundancy) (dec : Syndrome → Mask)
    (l : List Byte) : op.process enc dec (l.drop (op.blockBytes * op.blocks l.length)) = (0, []) := by
  have hpos : 0 < op.blockBytes := by cases op <;> decide
  apply op.process_of_short
  rw [List.length_drop, StreamOp.blocks, ← Nat.mod_eq_sub]
  exact Nat.mod_lt _ hpos

theorem runSteps_of_next {s t : State} (h : step s = .next t) (m : Nat) : runSteps (m + 1) s = runSteps m t := by
  rw [runSteps_succ, h]

/-- A run with `m` blocks left ends after `m + 1` steps, with what the loop makes of the rest of the input. -/
theorem runSteps_running {op : StreamOp} {s : State} {k count m : Nat} (hs : s.stream = .running op k count)
    (hm : k + m = op.blocks s.buffers.input.length) :
    runSteps (m + 1) s =
      let rest := op.process s.enc s.dec (s.buffers.input.drop (op.blockBytes * k))
      .next { s with
        res := none, buffers.output := s.buffers.output ++ rest.2,
        stream := .done op (op.blocks s.buffers.input.length) (count + rest.1) } := by
  induction m generalizing s k count with
  | zero =>
    obtain rfl : k = op.blocks s.buffers.input.length := hm
    rw [runSteps_of_next (step_of_running_end hs rfl), op.process_drop_blocks]
    simp [runSteps]
  | succ m ih =>
    obtain ⟨cnt, ys, hstep, hloop⟩ := step_of_running_block hs (by omega)
    have hnext : k + 1 + m = op.blocks s.buffers.input.length := by omega
    rw [runSteps_of_next hstep, hloop]
    refine (ih rfl (by exact hnext)).trans ?_
    simp only [List.append_assoc, Nat.add_assoc]
    rfl

/-- Settles O40: `step_of_running_end` is the end step, and `runSteps_running` counts the steps of a run from
`k = 0`. -/
theorem runEnds : Obligations.RunEnds := by
  refine ⟨?_, fun s v hs => by simp [State.streamResult, hs], ?_⟩
  · intro s op k count hs hk
    refine ⟨_, step_of_running_end hs hk, rfl, ?_⟩
    cases op <;> rfl
  · intro s op hs
    exact ⟨_, _, runSteps_running hs (Nat.zero_add _), rfl⟩

/-! A whole call, from its command to its end (R49, R143 to R148). -/

/-- An instance that is not busy launches a presented stream operation, on the buffers presented with it. -/
theorem step_launches {op : StreamOp} {s : State} {c : CmdWord} {b : Buffers} {rest : List Presented}
    (hb : s.busy = false) (hc : s.commands = ⟨c, b⟩ :: rest) (hd : decode c = .ok op.instr) :
    step s = launch op { s with commands := rest, res := none, buffers := b, stream := .idle } := by
  simp only [step_not_busy hb, hc, hd, exec_instr]
  rfl

/-- The launch, the block steps and the end give what the loop makes of the whole input. -/
theorem runSteps_call {op : StreamOp} {s : State} {c : CmdWord} {b : Buffers} {rest : List Presented}
    (hb : s.busy = false) (hc : s.commands = ⟨c, b⟩ :: rest) (hd : decode c = .ok op.instr)
    (happ : b.namesAppended s.others = false) (hshare : b.sharesInput s.others = false)
    (hlen : b.input.length % op.blockBytes = 0) :
    runSteps (op.blocks b.input.length + 2) s =
      let y := op.process s.enc s.dec b.input
      .next { s with
        commands := rest, res := none, buffers := { b with output := b.output ++ y.2 },
        stream := .done op (op.blocks b.input.length) y.1 } := by
  have hlaunch := step_launches hb hc hd
  rw [launch_of_right_length happ hshare hlen] at hlaunch
  refine (runSteps_of_next hlaunch _).trans ((runSteps_running rfl (Nat.zero_add _)).trans ?_)
  simp only [Nat.mul_zero, List.drop_zero, Nat.zero_add]
  rfl

/-- A wrong length ends the call at its launch. -/
theorem step_call_of_wrong_length {op : StreamOp} {s : State} {c : CmdWord} {b : Buffers} {rest : List Presented}
    (hb : s.busy = false) (hc : s.commands = ⟨c, b⟩ :: rest) (hd : decode c = .ok op.instr)
    (happ : b.namesAppended s.others = false) (hlen : b.input.length % op.blockBytes ≠ 0) :
    step s = .next { s with
      commands := rest, res := none, buffers := b, stream := .faulted (op.violation b.input.length) } :=
  (step_launches hb hc hd).trans (launch_of_wrong_length happ hlen)

/-- Settles O46: an empty input has no block, so the call ends one step after its launch, and only other calls can share
its buffers. -/
theorem emptyInputIsValid : Obligations.EmptyInputIsValid := by
  intro s c b rest hb hc happ hread hnil
  have hcall (op : StreamOp) (hd : decode c = .ok op.instr) :
      runSteps 2 s = .next { s with commands := rest, res := none, buffers := b, stream := .done op 0 0 } := by
    have hrun := runSteps_call hb hc hd happ ((sharesInput_of_nil hnil _).trans hread) (by simp [hnil])
    have hblocks : op.blocks b.input.length = 0 := by simp [hnil, StreamOp.blocks]
    have hloop : op.process s.enc s.dec b.input = (0, []) := by
      rw [hnil]
      cases op <;> rfl
    simpa [hblocks, hloop] using hrun
  exact ⟨fun hd => ⟨_, hcall .senc hd, rfl⟩, fun hd => ⟨_, hcall .sdec hd, rfl⟩⟩

end Sys2Proof.Machine
end

section
/-! SUPPORT. The whole calls of SENC and SDEC: their loops block by block, what they append and count, and that the
small-step machine computes them (43_stream.md R140 to R142, R147, R149, R151). -/

namespace Sys2Proof.Machine

/-! When a whole call raises and what it returns (R140, R142). -/

theorem sencCall_of_wrong_length (enc : DataWord → Redundancy) {input : List Byte} (output : List Byte)
    (h : input.length % 3 ≠ 0) : sencCall enc input output = .error (.sencLen input.length) := if_pos h

theorem sencCall_of_right_length (enc : DataWord → Redundancy) {input : List Byte} (output : List Byte)
    (h : input.length % 3 = 0) : sencCall enc input output = .ok (output ++ sencBytes enc input) :=
  if_neg (not_not_intro h)

theorem sencCall_eq_ok {enc : DataWord → Redundancy} {input output out : List Byte}
    (h : sencCall enc input output = .ok out) : input.length % 3 = 0 ∧ out = output ++ sencBytes enc input := by
  by_cases hlen : input.length % 3 = 0
  · rw [sencCall_of_right_length enc output hlen] at h
    cases h
    exact ⟨hlen, rfl⟩
  · rw [sencCall_of_wrong_length enc output hlen] at h
    cases h

theorem sdecCall_of_wrong_length (enc : DataWord → Redundancy) (dec : Syndrome → Mask) {input : List Byte}
    (output : List Byte) (h : input.length % 6 ≠ 0) :
    sdecCall enc dec input output = .error (.sdecLen input.length) := if_pos h

theorem sdecCall_of_right_length (enc : DataWord → Redundancy) (dec : Syndrome → Mask) {input : List Byte}
    (output : List Byte) (h : input.length % 6 = 0) :
    sdecCall enc dec input output = .ok ((sdecBytes enc dec input).1, output ++ (sdecBytes enc dec input).2) :=
  if_neg (not_not_intro h)

theorem sdecCall_eq_ok {enc : DataWord → Redundancy} {dec : Syndrome → Mask} {input output out : List Byte}
    {count : Nat} (h : sdecCall enc dec input output = .ok (count, out)) :
    input.length % 6 = 0 ∧ count = (sdecBytes enc dec input).1 ∧ out = output ++ (sdecBytes enc dec input).2 := by
  by_cases hlen : input.length % 6 = 0
  · rw [sdecCall_of_right_length enc dec output hlen] at h
    cases h
    exact ⟨hlen, rfl, rfl⟩
  · rw [sdecCall_of_wrong_length enc dec output hlen] at h
    cases h

/-- Settles O43: `runSteps_call` is the whole run, and `step_call_of_wrong_length` the launch that faults. -/
theorem smallStepsEqualWholeCalls : Obligations.SmallStepsEqualWholeCalls := by
  intro s c b rest hb hc happ
  constructor
  · intro hd
    by_cases hlen : b.input.length % 3 = 0
    · rw [sencCall_of_right_length _ _ hlen]
      exact fun hshare => runSteps_call (op := .senc) hb hc hd happ hshare hlen
    · rw [sencCall_of_wrong_length _ _ hlen]
      exact step_call_of_wrong_length (op := .senc) hb hc hd happ hlen
  · intro hd
    by_cases hlen : b.input.length % 6 = 0
    · rw [sdecCall_of_right_length _ _ _ hlen]
      exact fun hshare => runSteps_call (op := .sdec) hb hc hd happ hshare hlen
    · rw [sdecCall_of_wrong_length _ _ _ hlen]
      exact step_call_of_wrong_length (op := .sdec) hb hc hd happ hlen

/-! One round of a loop. -/

theorem sencBytes_append_block (enc : DataWord → Redundancy) (b0 b1 b2 : Byte) (rest : List Byte) :
    sencBytes enc ([b0, b1, b2] ++ rest) = codeBytes (enc24 enc ⟨b0, b1, b2⟩) ++ sencBytes enc rest := rfl

theorem sdecBytes_append_block (enc : DataWord → Redundancy) (dec : Syndrome → Mask) (c : CodeBlock)
    (rest : List Byte) :
    sdecBytes enc dec (codeBytes c ++ rest) =
      ((dec48 enc dec c).2.toNat + (sdecBytes enc dec rest).1,
        dataBytes (dec48 enc dec c).1 ++ (sdecBytes enc dec rest).2) := rfl

/-! The length of what is appended (R141, R149). -/

@[simp] theorem codeBytes_length (b : CodeBlock) : (codeBytes b).length = 6 := rfl

@[simp] theorem dataBytes_length (b : DataBlock) : (dataBytes b).length = 3 := rfl

theorem sencBytes_length (enc : DataWord → Redundancy) :
    ∀ l : List Byte, (sencBytes enc l).length = 6 * (l.length / 3)
  | b0 :: b1 :: b2 :: rest => by
    simp only [sencBytes, List.length_append, codeBytes_length, sencBytes_length enc rest, List.length_cons]
    omega
  | [] | [_] | [_, _] => by simp [sencBytes]

theorem sdecBytes_length (enc : DataWord → Redundancy) (dec : Syndrome → Mask) :
    ∀ l : List Byte, (sdecBytes enc dec l).2.length = 3 * (l.length / 6)
  | r0 :: r1 :: r2 :: r3 :: r4 :: r5 :: rest => by
    simp only [sdecBytes, List.length_append, dataBytes_length, sdecBytes_length enc dec rest, List.length_cons]
    omega
  | [] | [_] | [_, _] | [_, _, _] | [_, _, _, _] | [_, _, _, _, _] => by simp [sdecBytes]

/-- Settles O45: both calls return the old buffer followed by the bytes of their loop. -/
theorem existingOutputIsKept : Obligations.ExistingOutputIsKept := by
  constructor
  · intro enc input output out h
    obtain ⟨hlen, rfl⟩ := sencCall_eq_ok h
    refine ⟨List.take_left, ?_⟩
    rw [List.length_append, sencBytes_length]
    omega
  · intro enc dec input output out count h
    obtain ⟨hlen, -, rfl⟩ := sdecCall_eq_ok h
    refine ⟨List.take_left, ?_⟩
    rw [List.length_append, sdecBytes_length]
    omega

/-! The blocks in order (R140 to R142). -/

/-- The data block at `3k` of a buffer. -/
def dataBlockAt (l : List Byte) (k : Nat) : DataBlock :=
  ⟨l.getD (3 * k) 0, l.getD (3 * k + 1) 0, l.getD (3 * k + 2) 0⟩

/-- The codeword block at `6k` of a buffer. -/
def codeBlockAt (l : List Byte) (k : Nat) : CodeBlock :=
  ⟨l.getD (6 * k) 0, l.getD (6 * k + 1) 0, l.getD (6 * k + 2) 0,
    l.getD (6 * k + 3) 0, l.getD (6 * k + 4) 0, l.getD (6 * k + 5) 0⟩

theorem dataBlockAt_succ (b0 b1 b2 : Byte) (rest : List Byte) (k : Nat) :
    dataBlockAt (b0 :: b1 :: b2 :: rest) (k + 1) = dataBlockAt rest k := by
  simp [dataBlockAt, Nat.mul_succ]

theorem codeBlockAt_succ (r0 r1 r2 r3 r4 r5 : Byte) (rest : List Byte) (k : Nat) :
    codeBlockAt (r0 :: r1 :: r2 :: r3 :: r4 :: r5 :: rest) (k + 1) = codeBlockAt rest k := by
  simp [codeBlockAt, Nat.mul_succ]

theorem sencBytes_eq_flatMap (enc : DataWord → Redundancy) :
    ∀ l : List Byte,
      sencBytes enc l = (List.range (l.length / 3)).flatMap fun k => codeBytes (enc24 enc (dataBlockAt l k))
  | b0 :: b1 :: b2 :: rest => by
    have hblocks : (b0 :: b1 :: b2 :: rest).length / 3 = rest.length / 3 + 1 := by
      simp only [List.length_cons]
      omega
    rw [sencBytes, sencBytes_eq_flatMap enc rest, hblocks, List.range_succ_eq_map, List.flatMap_cons,
      List.flatMap_map]
    simp only [dataBlockAt_succ]
    rfl
  | [] | [_] | [_, _] => by simp [sencBytes]

theorem sdecBytes_eq_sum_flatMap (enc : DataWord → Redundancy) (dec : Syndrome → Mask) :
    ∀ l : List Byte, sdecBytes enc dec l =
      (((List.range (l.length / 6)).map fun k => (dec48 enc dec (codeBlockAt l k)).2.toNat).sum,
        (List.range (l.length / 6)).flatMap fun k => dataBytes (dec48 enc dec (codeBlockAt l k)).1)
  | r0 :: r1 :: r2 :: r3 :: r4 :: r5 :: rest => by
    have hblocks : (r0 :: r1 :: r2 :: r3 :: r4 :: r5 :: rest).length / 6 = rest.length / 6 + 1 := by
      simp only [List.length_cons]
      omega
    rw [sdecBytes, sdecBytes_eq_sum_flatMap enc dec rest, hblocks, List.range_succ_eq_map, List.map_cons,
      List.sum_cons, List.map_map, List.flatMap_cons, List.flatMap_map]
    simp only [Function.comp_def, codeBlockAt_succ]
    rfl
  | [] | [_] | [_, _] | [_, _, _] | [_, _, _, _] | [_, _, _, _, _] => by simp [sdecBytes]

/-- Settles O41: SENC's payload is 0, and its loop is the list of its blocks. -/
theorem sencWholeCall : Obligations.SencWholeCall := by
  refine ⟨spelledBy_of_payload_iff fun _ => Iff.rfl, fun enc input output => ⟨?_, fun hlen => ?_⟩⟩
  · exact sencCall_of_wrong_length enc output
  · rw [sencCall_of_right_length enc output hlen, sencBytes_eq_flatMap]
    rfl

/-- What SENC makes of the input from block `k` on is its output from byte `6k` on. -/
theorem sencBytes_drop (enc : DataWord → Redundancy) (l : List Byte) (k : Nat) :
    sencBytes enc (l.drop (3 * k)) = (sencBytes enc l).drop (6 * k) := by
  have hblock : ∀ l : List Byte, sencBytes enc (l.drop 3) = (sencBytes enc l).drop 6
    | b0 :: b1 :: b2 :: rest => rfl
    | [] | [_] | [_, _] => rfl
  induction k with
  | zero => rfl
  | succ k ih => rw [Nat.mul_succ, Nat.mul_succ, ← List.drop_drop, ← List.drop_drop, hblock, ih]

/-- Settles O44: the output from `6k` on is the loop of the input from `3k` on, which starts with the
block's codeword. -/
theorem sencBlocksLandInOrder : Obligations.SencBlocksLandInOrder := by
  intro enc input output out h
  refine ⟨(existingOutputIsKept.1 enc input output out h).2, fun k hk => ?_⟩
  obtain ⟨-, rfl⟩ := sencCall_eq_ok h
  obtain ⟨b0, b1, b2, hbytes, -⟩ := memRead_three (buf := input) (off := 3 * k) (by omega)
  refine ⟨b0, b1, b2, hbytes, ?_⟩
  rw [List.drop_length_add_append, ← sencBytes_drop, drop_eq_block_append hbytes, sencBytes_append_block]
  exact List.take_left' rfl

/-! The count (R125, R151). -/

theorem decw_flag_eq_decide (enc : DataWord → Redundancy) (dec : Syndrome → Mask) (f : Fragment) :
    (decw enc dec f).flag = decide (correctionMask enc dec f ≠ 0#23) := rfl

theorem dec48_count (enc : DataWord → Redundancy) (dec : Syndrome → Mask) (b : CodeBlock) :
    (dec48 enc dec b).2.toNat =
      (decw enc dec (firstFragment b)).flag.toNat + (decw enc dec (secondFragment b)).flag.toNat :=
  blockCount_toNat _ _

/-- The count is the number of fragments whose flag is set, two fragments a block. -/
theorem sdecBytes_count (enc : DataWord → Redundancy) (dec : Syndrome → Mask) :
    ∀ l : List Byte, l.length % 6 = 0 →
      (sdecBytes enc dec l).1 = (fragmentsOf l).countP fun f => (decw enc dec f).flag
  | r0 :: r1 :: r2 :: r3 :: r4 :: r5 :: rest, h => by
    have ih := sdecBytes_count enc dec rest (by simp only [List.length_cons] at h; omega)
    simp only [sdecBytes, fragmentsOf, List.countP_cons, dec48_count, ih, firstFragment, secondFragment, Bool.toNat,
      Bool.cond_eq_ite]
    omega
  | [], _ => rfl

theorem fragmentsOf_length : ∀ l : List Byte, (fragmentsOf l).length = l.length / 3
  | f0 :: f1 :: f2 :: rest => by
    simp only [fragmentsOf, List.length_cons, fragmentsOf_length rest]
    omega
  | [] | [_] | [_, _] => by simp [fragmentsOf]

/-- Settles O48: the count is the number of flags set, and a flag is set at a nonzero mask; there are two fragments a
block. -/
theorem countIsTheNumberOfCorrectedWords : Obligations.CountIsTheNumberOfCorrectedWords := by
  intro enc dec input output out count h
  obtain ⟨hlen, hcount, -⟩ := sdecCall_eq_ok h
  rw [sdecBytes_count enc dec input hlen] at hcount
  refine ⟨?_, hcount, fun hwf => ?_⟩
  · have hle := List.countP_le_length (p := fun f => (decw enc dec f).flag) (l := fragmentsOf input)
    rw [fragmentsOf_length] at hle
    omega
  · obtain ⟨-, -, hflag⟩ := flagIsNonzeroSyndrome enc dec hwf
    simpa only [hflag] using hcount

/-- `n` codeword blocks of the DataWords 0 and 0, each codeword with bit 0 flipped. -/
def flippedZeroBlocks (n : Nat) : List Byte := (List.replicate n (codeBytes ⟨1, 0, 0, 1, 0, 0⟩)).flatten

theorem flippedZeroBlocks_length (n : Nat) : (flippedZeroBlocks n).length = 6 * n := by
  simp [flippedZeroBlocks, Nat.mul_comm]

/-- Under well-formed tables every word of these blocks is corrected. -/
theorem sdecBytes_count_flippedZeroBlocks {enc : DataWord → Redundancy} {dec : Syndrome → Mask}
    (hwf : TablesWF enc dec) (n : Nat) : (sdecBytes enc dec (flippedZeroBlocks n)).1 = 2 * n := by
  have hsynd : syndrome enc ⟨1, 0, 0⟩ = 1#11 := by
    rw [syndrome, show fragData ⟨1, 0, 0⟩ = 0#12 by decide, linear_zero hwf.linear]
    decide
  have hflag : (decw enc dec ⟨1, 0, 0⟩).flag = true := by
    rw [(flagIsNonzeroSyndrome enc dec hwf).2.2, hsynd]
    decide
  have hcount : (dec48 enc dec ⟨1, 0, 0, 1, 0, 0⟩).2.toNat = 2 := by
    rw [dec48_count]
    simp only [firstFragment, secondFragment, hflag, Bool.toNat_true]
  induction n with
  | zero => rfl
  | succ n ih =>
    rw [flippedZeroBlocks, List.replicate_succ, List.flatten_cons, ← flippedZeroBlocks, sdecBytes_append_block, ih,
      hcount]
    omega

/-- Settles O42: SDEC's payload is 0, its loop is the list of its blocks, and every word of `flippedZeroBlocks` is
corrected. -/
theorem sdecWholeCall : Obligations.SdecWholeCall := by
  refine ⟨spelledBy_of_payload_iff fun _ => Iff.rfl, fun enc dec input output => ⟨?_, fun hlen => ?_, ?_⟩⟩
  · exact sdecCall_of_wrong_length enc dec output
  · have hcall := sdecCall_of_right_length enc dec output hlen
    obtain ⟨-, hlength⟩ := existingOutputIsKept.2 enc dec input output _ _ hcall
    rw [sdecBytes_eq_sum_flatMap] at hcall hlength
    exact ⟨hcall, hlength⟩
  · intro hwf n
    have hlen := flippedZeroBlocks_length n
    have hcount : (sdecBytes enc dec (flippedZeroBlocks n)).1 = (flippedZeroBlocks n).length / 3 := by
      rw [sdecBytes_count_flippedZeroBlocks hwf, hlen]
      omega
    exact ⟨_, _, hlen, hcount ▸ sdecCall_of_right_length enc dec output (by omega)⟩

end Sys2Proof.Machine
end

section
/-! SUPPORT. Decoding what was encoded, under well-formed tables: the error-free round trip and codewords with flipped
bits (43_stream.md R150, R152; 30_encoding.md R66, R79). -/

namespace Sys2Proof.Bits

/-- A power of two has at most one bit set. -/
theorem popcount_twoPow_le (n i : Nat) : popcount (BitVec.twoPow n i) ≤ 1 := by
  calc popcount (BitVec.twoPow n i)
      ≤ (List.range n).count i := by
        refine List.countP_mono_left fun j _ hj => ?_
        simp only [BitVec.getLsbD_twoPow, Bool.and_eq_true, decide_eq_true_eq] at hj
        simp [hj.2]
    _ ≤ 1 := List.nodup_iff_count_le_one.mp List.nodup_range i

theorem twoPow_eq_zero_iff (n i : Nat) : BitVec.twoPow n i = 0#n ↔ n ≤ i := by
  constructor
  · intro h
    have hbit := congrArg (·.getLsbD i) h
    simpa [BitVec.getLsbD_twoPow] using hbit
  · intro h
    apply BitVec.eq_of_getLsbD_eq
    intro j hj
    simp [BitVec.getLsbD_twoPow, show ¬ i < n by omega]

/-- A slice that stays inside does not tell the widths apart. -/
theorem extractLsb'_twoPow {n m start len : Nat} (i : Nat) (hn : start + len ≤ n) (hm : start + len ≤ m) :
    (BitVec.twoPow n i).extractLsb' start len = (BitVec.twoPow m i).extractLsb' start len := by
  apply BitVec.eq_of_getLsbD_eq
  intro j hj
  by_cases hij : i = start + j
  · simp [hij, show start + j < n by omega, show start + j < m by omega]
  · simp [BitVec.getLsbD_twoPow, hij]

/-- A bit flipped in a concatenation is flipped in one of the parts. -/
theorem flipBit_cat_low {n m k i : Nat} (hi : BitVec n) (lo : BitVec m) (h : n + m = k) (him : i < m) :
    flipBit (cat k hi lo h) i = cat k hi (flipBit lo i) h := by
  apply BitVec.eq_of_getLsbD_eq
  intro j hj
  simp only [getLsbD_flipBit, getLsbD_cat]
  by_cases hjm : j < m
  · simp [hj, hjm]
  · simp [hjm, show i ≠ j by omega]

theorem flipBit_cat_high {n m k i : Nat} (hi : BitVec n) (lo : BitVec m) (h : n + m = k) (him : m ≤ i) :
    flipBit (cat k hi lo h) i = cat k (flipBit hi (i - m)) lo h := by
  apply BitVec.eq_of_getLsbD_eq
  intro j hj
  simp only [getLsbD_flipBit, getLsbD_cat]
  by_cases hjm : j < m
  · simp [hjm, show i ≠ j by omega]
  · simp [hj, hjm, show j - m < n by omega, show i - m = j - m ↔ i = j by omega]

end Sys2Proof.Bits

namespace Sys2Proof.Machine

open Sys2Proof.Bits

@[simp] theorem ofSlot_slot (f : Fragment) : ofSlot (slot f) = f := by
  simp [ofSlot, slot, cat3]

theorem fragData_ofSlot (v : Slot) : fragData (ofSlot v) = v.extractLsb' 11 12 := by
  rw [← slot_data, slot_ofSlot]

theorem fragRed_ofSlot (v : Slot) : fragRed (ofSlot v) = v.extractLsb' 0 11 := by
  rw [← slot_redundancy, slot_ofSlot]

theorem dec48_joinFragments (enc : DataWord → Redundancy) (dec : Syndrome → Mask) (f g : Fragment) :
    dec48 enc dec (joinFragments f g) =
      (join3 ⟨(decw enc dec f).data, (decw enc dec g).data⟩,
        blockCount (decw enc dec f).flag (decw enc dec g).flag) := rfl

theorem enc24_eq (enc : DataWord → Redundancy) (b : DataBlock) :
    enc24 enc b = joinFragments (encw enc (split3 b).w0) (encw enc (split3 b).w1) := rfl

/-- A block with both words received within the correction limit. -/
theorem dec48_of_corrected {enc : DataWord → Redundancy} {dec : Syndrome → Mask} {f g : Fragment} {b : DataBlock}
    {flag0 flag1 : Bool}
    (hf : decw enc dec f = ⟨(split3 b).w0, flag0⟩) (hg : decw enc dec g = ⟨(split3 b).w1, flag1⟩) :
    dec48 enc dec (joinFragments f g) = (b, blockCount flag0 flag1) := by
  rw [dec48_joinFragments, hf, hg]
  exact congrArg (·, _) (join3_split3 b)

section
variable {enc : DataWord → Redundancy} {dec : Syndrome → Mask}

/-- A fragment that differs from an encoded word by at most 3 meaningful bits decodes to that word (R130). -/
theorem TablesWF.decw_of_light_error (h : TablesWF enc dec) (d : DataWord) {e : Mask} (he : popcount e ≤ 3) :
    decw enc dec (addError e (encw enc d)) = ⟨d, correctionFlag e⟩ := by
  rw [decw_addError_encw h.linear, h.dec_synd he, BitVec.xor_self]
  simp [maskData]

theorem TablesWF.decw_encw (h : TablesWF enc dec) (d : DataWord) : decw enc dec (encw enc d) = ⟨d, false⟩ := by
  calc decw enc dec (encw enc d)
      = decw enc dec (addError 0#23 (encw enc d)) := decw_congr enc dec (by simp [maskData]) (by simp [maskRed])
    _ = ⟨d, false⟩ := h.decw_of_light_error d (by decide)

/-- RTRIP returns its block (R79, R150). -/
theorem TablesWF.dec48_enc24 (h : TablesWF enc dec) (b : DataBlock) : dec48 enc dec (enc24 enc b) = (b, 0#2) :=
  dec48_of_corrected (h.decw_encw _) (h.decw_encw _)

theorem TablesWF.sdecBytes_sencBytes (h : TablesWF enc dec) :
    ∀ x : List Byte, x.length % 3 = 0 → sdecBytes enc dec (sencBytes enc x) = (0, x)
  | b0 :: b1 :: b2 :: rest, hlen => by
    have ih := h.sdecBytes_sencBytes rest (by simp only [List.length_cons] at hlen; omega)
    rw [sencBytes, sdecBytes_append_block, h.dec48_enc24, ih]
    rfl
  | [], _ => rfl

end

/-- Settles O47: every block that SENC appends decodes to itself with count 0. -/
theorem roundTripReturnsTheInput : Obligations.RoundTripReturnsTheInput := by
  intro enc dec hwf x hlen
  refine ⟨_, sencCall_of_right_length enc [] hlen, ?_⟩
  rw [List.nil_append, sdecCall_of_right_length enc dec [] (by rw [sencBytes_length]; omega),
    hwf.sdecBytes_sencBytes x hlen, List.nil_append]

/-! A flipped bit of a codeword block (R66, R79). -/

theorem blockBits_joinFragments (f g : Fragment) : blockBits (joinFragments f g) = cat 48 (slot g) (slot f) := rfl

theorem ofBlockBits_cat_slots (x y : Slot) : ofBlockBits (cat 48 y x) = joinFragments (ofSlot x) (ofSlot y) := by
  simp [ofBlockBits, joinFragments, ofSlot]

theorem flipBlock_low (f g : Fragment) {i : Nat} (h : i < 24) :
    flipBlock (joinFragments f g) i = joinFragments (ofSlot (flipBit (slot f) i)) g := by
  rw [flipBlock, blockBits_joinFragments, flipBit_cat_low _ _ _ h, ofBlockBits_cat_slots, ofSlot_slot]

theorem flipBlock_high (f g : Fragment) {i : Nat} (h : 24 ≤ i) :
    flipBlock (joinFragments f g) i = joinFragments f (ofSlot (flipBit (slot g) (i - 24))) := by
  rw [flipBlock, blockBits_joinFragments, flipBit_cat_high _ _ _ h, ofBlockBits_cat_slots, ofSlot_slot]

/-- DECW sees a flipped bit of the slot as the error pattern of that bit, which is empty at bit 23. -/
theorem decw_flipSlot (enc : DataWord → Redundancy) (dec : Syndrome → Mask) (f : Fragment) (i : Nat) :
    decw enc dec (ofSlot (flipBit (slot f) i)) = decw enc dec (addError (BitVec.twoPow 23 i) f) := by
  apply decw_congr
  · rw [fragData_ofSlot, fragData_addError, flipBit, BitVec.extractLsb'_xor, slot_data, maskData,
      extractLsb'_twoPow (m := 23) i (by decide) (by decide)]
  · rw [fragRed_ofSlot, fragRed_addError, flipBit, BitVec.extractLsb'_xor, slot_redundancy, maskRed,
      extractLsb'_twoPow (m := 23) i (by decide) (by decide)]

theorem TablesWF.decw_flipSlot_encw {enc : DataWord → Redundancy} {dec : Syndrome → Mask} (h : TablesWF enc dec)
    (d : DataWord) {i : Nat} (hi : i < 24) :
    decw enc dec (ofSlot (flipBit (slot (encw enc d)) i)) = ⟨d, decide (i ≠ 23)⟩ := by
  have hlight : popcount (BitVec.twoPow 23 i) ≤ 3 := (popcount_twoPow_le 23 i).trans (by decide)
  have hflag : correctionFlag (BitVec.twoPow 23 i) = decide (i ≠ 23) := by
    rw [correctionFlag, decide_eq_decide, ne_eq, twoPow_eq_zero_iff]
    omega
  rw [decw_flipSlot, h.decw_of_light_error d hlight, hflag]

theorem TablesWF.dec48_flipBlock_enc24 {enc : DataWord → Redundancy} {dec : Syndrome → Mask} (h : TablesWF enc dec)
    (b : DataBlock) {i : Nat} (hi : i < 48) :
    dec48 enc dec (flipBlock (enc24 enc b) i) = (b, if i = 23 ∨ i = 47 then 0#2 else 1#2) := by
  rw [enc24_eq]
  by_cases hlow : i < 24
  · rw [flipBlock_low _ _ hlow, dec48_of_corrected (h.decw_flipSlot_encw _ hlow) (h.decw_encw _)]
    by_cases hunused : i = 23
    · simp [hunused, blockCount]
    · simp [hunused, show i ≠ 47 by omega, blockCount]
  · rw [flipBlock_high _ _ (by omega), dec48_of_corrected (h.decw_encw _) (h.decw_flipSlot_encw _ (by omega))]
    by_cases hunused : i = 47
    · simp [hunused, blockCount]
    · simp [hunused, show i ≠ 23 by omega, show i - 24 ≠ 23 by omega, blockCount]

/-- Settles O49: a flipped bit is an error of weight 1 in its half, or of weight 0 at the unused bit, and each half
decodes on its own. -/
theorem flippedBlocksDecode : Obligations.FlippedBlocksDecode := by
  intro enc dec hwf
  constructor
  · intro b i hi
    have hbytes := sdecBytes_append_block enc dec (flipBlock (enc24 enc b) i) []
    rw [List.append_nil, hwf.dec48_flipBlock_enc24 b hi] at hbytes
    rw [sdecCall_of_right_length enc dec [] (by simp), hbytes]
    split <;> rfl
  · intro b e0 e1 half0 half1 received
    have hsplit : split3 received.1 =
        ⟨(decw enc dec (addError e0 half0)).data, (decw enc dec (addError e1 half1)).data⟩ := split3_join3 _
    rw [hsplit]
    exact ⟨fun h0 => by rw [hwf.decw_of_light_error _ h0], fun h1 => by rw [hwf.decw_of_light_error _ h1]⟩

end Sys2Proof.Machine
end

section
/-! SUPPORT. What a faulted stream call leaves and returns (60_exceptions.md R160, R162). -/

namespace Sys2Proof.Machine

/-- Both violations record the length of the input that raised them (R160). -/
@[simp] theorem StreamOp.recorded_violation (op : StreamOp) (len : Nat) : (op.violation len).recorded = len := by
  cases op <;> rfl

theorem streamResult_of_faulted {s : State} {v : Violation} (hs : s.stream = .faulted v) : s.streamResult = none :=
  have ⟨_, hnone, _⟩ := runEnds
  hnone s v hs

/-- The launch of either operation on a wrong length, by its effects (R162). -/
theorem launch_of_wrong_length_effects {op : StreamOp} {s : State}
    (happ : s.buffers.namesAppended s.others = false) (hlen : s.buffers.input.length % op.blockBytes ≠ 0) :
    ∃ (t : State) (v : Violation), launch op s = .next t ∧ t.stream = .faulted v ∧
      v.code = (op.violation s.buffers.input.length).code ∧ v.recorded = s.buffers.input.length ∧
      t.buffers.output = s.buffers.output ∧ t.streamResult = none :=
  ⟨_, _, launch_of_wrong_length happ hlen, rfl, rfl, op.recorded_violation _, rfl, streamResult_of_faulted rfl⟩

/-- Settles O36: where no other call appends to its buffers, a wrong length decides the launch, and the fault writes the
run alone; the codes 1 and 2 are those of the two violations. -/
theorem faultedCallReturnsNothing : Obligations.FaultedCallReturnsNothing := fun _ happ =>
  ⟨launch_of_wrong_length_effects (op := .senc) happ, launch_of_wrong_length_effects (op := .sdec) happ⟩

end Sys2Proof.Machine
end

section
/-! SUPPORT. The frame of both tables: no operation, no block of a running call and no step writes them
(20_memory.md R26; 70_reset_and_hazards.md R181). -/

namespace Sys2Proof.Machine

theorem exec_next_tables {i : Instr} {s t : State} (h : exec i s = .next t) :
    t.encTable = s.encTable ∧ t.decTable = s.decTable := by
  rcases exec_cases i s with ⟨-, -, w, he⟩ | ⟨-, he⟩ | ⟨-, he⟩ <;> rw [he] at h
  · cases h
    exact ⟨rfl, rfl⟩
  all_goals
    rw [launch_next h]
    exact ⟨rfl, rfl⟩

theorem sequencerStep_next_tables {op : StreamOp} {k count : Nat} {s t : State}
    (h : sequencerStep op k count s = .next t) : t.encTable = s.encTable ∧ t.decTable = s.decTable := by
  obtain ⟨-, ys, cnt, rfl, -, -⟩ | ⟨-, rfl⟩ := sequencerStep_cases h
  · exact ⟨rfl, rfl⟩
  · exact ⟨rfl, rfl⟩

/-- A step is a step of the sequencer, an idle step or an operation, and the state that the first and the last start
from holds the tables of `s`. -/
theorem step_next_tables {s t : State} (h : step s = .next t) :
    t.encTable = s.encTable ∧ t.decTable = s.decTable := by
  obtain ⟨op, k, count, -, hseq⟩ | ⟨-, -, rfl⟩ | ⟨-, p, rest, i, -, -, hexec⟩ := step_cases h
  · have htables := sequencerStep_next_tables hseq
    exact htables
  · exact ⟨s.retire_encTable, s.retire_decTable⟩
  · have htables := exec_next_tables hexec
    exact htables

/-- Settles O10: reset copies the parameter's contents, and the frame of both tables holds of a step and of an
operation. -/
theorem tablesNeverChange : Obligations.TablesNeverChange :=
  ⟨rfl, rfl, fun _ _ => step_next_tables, fun _ _ _ => exec_next_tables⟩

end Sys2Proof.Machine
end

section
/-! SUPPORT. Encoding and decoding are inverse to each other, and the legal words are those that decode
(30_encoding.md R70, R72, R74, R77). -/

namespace Sys2Proof

open Sys2Proof.Bits

theorem decode_encode (i : Instr) : decode (encode i) = .ok i := by
  obtain ⟨hop, hrsv0, hrsv1, hpayload⟩ := Laws.EncodedWord.fields i
  exact decode_eq_ok_iff.mpr ⟨hop, hrsv0, hpayload, hrsv1⟩

/-- The decoder answers an operation for the well-formed words and for no other (R74). -/
theorem CmdFields.wellFormed_iff_decode_ok (c : CmdWord) : wellFormed c = true ↔ ∃ i, decode c = .ok i := by
  rw [decode_eq]
  split
  next hwf => exact iff_of_true hwf ⟨_, rfl⟩
  next hwf => exact iff_of_false hwf fun ⟨_, h⟩ => by cases h

/-- Settles O1: the fields of the encoded word are those that `decode_eq_ok_iff` asks for. -/
theorem decodeOfEncodeIsIdentity : Obligations.DecodeOfEncodeIsIdentity := fun i =>
  ⟨(CmdFields.wellFormed_iff_decode_ok _).mpr ⟨i, decode_encode i⟩, decode_encode i⟩

/-- A command word is its four fields (R70). -/
theorem cat_fields (c : CmdWord) :
    cat 64 (cat 56 (CmdFields.rsv1 c) (CmdFields.payload c)) (cat 8 (CmdFields.rsv0 c) (CmdFields.op c)) = c := by
  simp [CmdFields.rsv1, CmdFields.payload, CmdFields.rsv0, CmdFields.op]

/-- Settles O2: a word that decodes to `i` has the fields that `encode i` puts together. -/
theorem encodeOfDecodeIsIdentity : Obligations.EncodeOfDecodeIsIdentity := by
  intro c i h
  obtain ⟨hop, hrsv0, hpayload, hrsv1⟩ := decode_eq_ok_iff.mp h
  rw [encode, ← hop, ← hpayload, ← hrsv0, ← hrsv1, cat_fields]

/-- Settles O4: each of the fourteen words is decoded by evaluation. -/
theorem listedWordsDecode : Obligations.ListedWordsDecode := by
  unfold Obligations.ListedWordsDecode
  decide

end Sys2Proof
end

section
/-! SUPPORT. What the operations read and leave: the response of a block operation, the frame of every operation, the
launches that are refused, and facts of DEC48, RTRIP and the DecodeTable (10_state.md R28;
20_memory.md R41, R47, R51; 42_decoder.md R127, R129). -/

namespace Sys2Proof.Machine

/-- Settles O13: each response is written from the operands and the table reads, which are the same in `s'`. -/
theorem responsesDependOnOperandsAndTables : Obligations.ResponsesDependOnOperandsAndTables := by
  intro i s hsenc hsdec
  cases i with
  | senc => exact absurd rfl hsenc
  | sdec => exact absurd rfl hsdec
  | split3 b0 b1 b2 => exact ⟨_, fun s' _ _ => exec_split3 b0 b1 b2 s'⟩
  | join3 w0 w1 => exact ⟨_, fun s' _ _ => exec_join3 w0 w1 s'⟩
  | encw d =>
    refine ⟨fragmentResponse (encw s.enc d), fun s' henc _ => ?_⟩
    rw [exec_encw, State.enc_congr henc]
  | decw f0 f1 f2 =>
    refine ⟨decodedResponse (decw s.enc s.dec ⟨f0, f1, f2⟩), fun s' henc hdec => ?_⟩
    rw [exec_decw, State.enc_congr henc, State.dec_congr hdec]
  | enc24 b0 b1 b2 =>
    refine ⟨codeResponse (enc24 s.enc ⟨b0, b1, b2⟩), fun s' henc _ => ?_⟩
    rw [exec_enc24, State.enc_congr henc]
  | dec48 r0 r1 r2 r3 r4 r5 =>
    let x := dec48 s.enc s.dec (joinFragments ⟨r0, r1, r2⟩ ⟨r3, r4, r5⟩)
    refine ⟨blockDecodedResponse x.1 x.2, fun s' henc hdec => ?_⟩
    rw [exec_dec48, State.enc_congr henc, State.dec_congr hdec]
    rfl

/-- An operation that answers a next state writes the response and the run only. -/
theorem exec_next {i : Instr} {s t : State} (h : exec i s = .next t) :
    t = { s with res := t.res, stream := t.stream } := by
  rcases exec_cases i s with ⟨-, -, w, he⟩ | ⟨-, he⟩ | ⟨-, he⟩ <;> rw [he] at h
  · cases h
    rfl
  all_goals
    rw [launch_next h]

/-- Settles O14: the state that a block operation answers is `s` with a response word, and so has every other field of
`s`. -/
theorem blockOperationsWriteOnlyTheResponse : Obligations.BlockOperationsWriteOnlyTheResponse := by
  intro i s t hsenc hsdec h
  obtain ⟨w, hw⟩ := responsesDependOnOperandsAndTables i s hsenc hsdec
  rw [hw s rfl rfl] at h
  cases h
  exact ⟨rfl, rfl, rfl, rfl, rfl, rfl⟩

/-- Settles O15: `launch_next` is the frame of both launches. -/
theorem launchesWriteOnlyTheRun : Obligations.LaunchesWriteOnlyTheRun := by
  intro s t h
  have hframe : t = { s with stream := t.stream } := h.elim (launch_next (op := .senc)) (launch_next (op := .sdec))
  rw [hframe]
  exact ⟨rfl, rfl, rfl, rfl, rfl, rfl⟩

/-! A launch that answers a next state (R143), and that no operation reads the output buffer (R50). -/

/-- A launch that answers a next state starts a run on a right length and on buffers of its own, or faults on a wrong
length. -/
theorem launch_next_cases {op : StreamOp} {s t : State} (h : launch op s = .next t) :
    (s.buffers.Exclusive s.others ∧ s.buffers.input.length % op.blockBytes = 0 ∧
      t = { s with stream := .running op 0 0 }) ∨
    (s.buffers.namesAppended s.others = false ∧ s.buffers.input.length % op.blockBytes ≠ 0 ∧
      t = { s with stream := .faulted (op.violation s.buffers.input.length) }) := by
  rcases launch_cases op s with ⟨-, he⟩ | ⟨-, -, -, he⟩ | ⟨hexcl, hlen, he⟩ | ⟨happ, hlen, he⟩ <;> rw [he] at h <;>
    cases h
  · exact .inl ⟨hexcl, StreamOp.lengthOk_iff.mp hlen, rfl⟩
  · exact .inr ⟨happ, StreamOp.lengthOk_eq_false_iff.mp hlen, rfl⟩

theorem launch_with_output {op : StreamOp} {s t : State} (h : launch op s = .next t) (o : List Byte) :
    launch op { s with buffers.output := o } = .next { t with buffers.output := o } := by
  obtain ⟨⟨happ, hshare⟩, hlen, rfl⟩ | ⟨happ, hlen, rfl⟩ := launch_next_cases h
  · exact launch_of_right_length happ hshare hlen
  · exact launch_of_wrong_length happ hlen

/-- No operation reads the bytes of the output buffer. -/
theorem exec_with_output {i : Instr} {s t : State} (h : exec i s = .next t) (o : List Byte) :
    exec i { s with buffers.output := o } = .next { t with buffers.output := o } := by
  rcases exec_cases i s with ⟨hsenc, hsdec, -⟩ | ⟨rfl, -⟩ | ⟨rfl, -⟩
  · obtain ⟨w, hw⟩ := responsesDependOnOperandsAndTables i s hsenc hsdec
    rw [hw s rfl rfl] at h
    cases h
    exact hw _ rfl rfl
  · exact launch_with_output (op := .senc) h o
  · exact launch_with_output (op := .sdec) h o

/-! Which launches are refused (R51, R187). -/

theorem Buffers.namesAppended_iff {b : Buffers} {others : List Claim} :
    b.namesAppended others = true ↔ ∃ c ∈ others, c.outputName = b.outputName ∨ c.outputName = b.inputName := by
  simp [Buffers.namesAppended]

theorem Buffers.sharesInput_iff {b : Buffers} {others : List Claim} :
    b.sharesInput others = true ↔
      (∃ c ∈ others, c.inputName = b.outputName ∨ c.inputName = b.inputName) ∨
        (b.input ≠ [] ∧ b.inputName = b.outputName) := by
  simp [Buffers.sharesInput, Buffers.namesRead, Buffers.appendsToItself]

/-- The duty that decides a launch of a right length is not asked of one of a wrong length (R166). -/
theorem launch_refused_or_next (op : StreamOp) (s : State) :
    let broken : Prop := s.buffers.namesAppended s.others = true ∨
      (s.buffers.input.length % op.blockBytes = 0 ∧ s.buffers.sharesInput s.others = true)
    (broken → launch op s = .refused (.sharedBuffer s.buffers.inputName s.buffers.outputName)) ∧
      (¬ broken → ∃ t, launch op s = .next t) := by
  intro broken
  rcases launch_cases op s with ⟨happ, he⟩ | ⟨-, hlen, hshare, he⟩ | ⟨⟨happ, hshare⟩, -, he⟩ | ⟨happ, hlen, he⟩
  · exact ⟨fun _ => he, fun hok => absurd (.inl happ) hok⟩
  · exact ⟨fun _ => he, fun hok => absurd (.inr ⟨StreamOp.lengthOk_iff.mp hlen, hshare⟩) hok⟩
  · refine ⟨fun hbroken => ?_, fun _ => ⟨_, he⟩⟩
    simp [broken, happ, hshare] at hbroken
  · refine ⟨fun hbroken => ?_, fun _ => ⟨_, he⟩⟩
    simp [broken, happ, StreamOp.lengthOk_eq_false_iff.mp hlen] at hbroken

/-- Settles O37: `launch_refused_or_next`, with the two Boolean tests written out as they are in the statement. -/
theorem sharedBufferLaunchIsRefused : Obligations.SharedBufferLaunchIsRefused := by
  intro s b named shared
  have hnamed : b.namesAppended s.others = true ↔ named := Buffers.namesAppended_iff
  have hshared : b.sharesInput s.others = true ↔ shared := Buffers.sharesInput_iff
  rw [← hnamed, ← hshared]
  obtain ⟨hsencRefused, hsencNext⟩ := launch_refused_or_next .senc s
  obtain ⟨hsdecRefused, hsdecNext⟩ := launch_refused_or_next .sdec s
  exact ⟨hsencRefused, hsencNext, hsdecRefused, hsdecNext⟩

/-! Two fragments, and two operations one after the other. -/

/-- Settles O27: DEC48 joins what DECW makes of each fragment, and SPLIT3 takes the two words apart again. -/
theorem dec48HalvesAreIndependent : Obligations.Dec48HalvesAreIndependent := by
  intro enc dec a b a' b'
  simp only [dec48_joinFragments, split3_join3, blockCount_toNat, and_self]

/-- Settles O33: an entry of one table is a pattern of weight at most 3 with the entry's syndrome, and the other table
holds the only one. -/
theorem decodeTableIsDeterminedByEncodeTable : Obligations.DecodeTableIsDeterminedByEncodeTable := by
  intro enc dec dec' h h'
  funext x
  exact (h'.leaders x (dec x)).mp ⟨h.dec_weight x, h.synd_dec x⟩

/-- The six result bytes of ENC24, read back from its response word (R72). -/
theorem responseBlock_codeResponse (b : CodeBlock) : responseBlock (codeResponse b) = b := by
  simp [responseBlock, codeResponse, ofBlockBits, blockBits, cat6, cat3]

/-- Settles O50: the second operation gets the block that the first one encoded, and decoding it is
`TablesWF.dec48_enc24`. -/
theorem rtripExpandsAndReturns : Obligations.RtripExpandsAndReturns := by
  intro s b
  refine ⟨_, exec_enc24 b.b0 b.b1 b.b2 s, ?_, fun hwf => hwf.dec48_enc24 b⟩
  simp only [rtripSecond, responseBlock_codeResponse]
  exact exec_dec48 _ _ _ _ _ _ _

end Sys2Proof.Machine
end

section
/-! SUPPORT. The step of a running call, as one equation in what the loop makes of the block at `k`, and what follows
from it: it accepts no command, reads the input and the tables alone, and only appends to the output (20_memory.md R47,
R49, R50; 43_stream.md R144 to R146). -/

namespace Sys2Proof.Machine

/-- The count and the bytes that a stream operation makes of block `k` of its input (R144, R145). -/
def StreamOp.block (op : StreamOp) (enc : DataWord → Redundancy) (dec : Syndrome → Mask) (input : List Byte)
    (k : Nat) : Nat × List Byte :=
  op.process enc dec ((input.drop (op.blockBytes * k)).take op.blockBytes)

theorem sequencerStep_of_lt {op : StreamOp} {k count : Nat} {s : State} (hk : k < op.blocks s.buffers.input.length) :
    sequencerStep op k count s =
      let x := op.block s.enc s.dec s.buffers.input k
      .next { s with
        buffers.output := s.buffers.output ++ x.2, stream := .running op (k + 1) (count + x.1) } := by
  cases op with
  | senc =>
    obtain ⟨b0, b1, b2, hbytes, hstep⟩ := sencBlock_eq (count := count) hk
    refine (if_pos hk).trans (hstep.trans ?_)
    simp [StreamOp.block, StreamOp.blockBytes, hbytes, StreamOp.process, sencBytes]
  | sdec =>
    obtain ⟨r0, r1, r2, r3, r4, r5, hbytes, hstep⟩ := sdecBlock_eq (count := count) hk
    refine (if_pos hk).trans (hstep.trans ?_)
    simp [StreamOp.block, StreamOp.blockBytes, hbytes, StreamOp.process, sdecBytes]

/-- Everything a step of a running call can do when it answers a next state, in terms of its block. -/
theorem step_running_cases {op : StreamOp} {k count : Nat} {s t : State} (hs : s.stream = .running op k count)
    (h : step s = .next t) :
    (k < op.blocks s.buffers.input.length ∧
      let x := op.block s.enc s.dec s.buffers.input k
      t = { s with
        res := none, buffers.output := s.buffers.output ++ x.2,
        stream := .running op (k + 1) (count + x.1) }) ∨
    (k = op.blocks s.buffers.input.length ∧ t = { s with res := none, stream := .done op k count }) := by
  rw [step_running hs] at h
  obtain ⟨hk, -⟩ | ⟨hk, rfl⟩ := sequencerStep_cases h
  · rw [sequencerStep_of_lt hk] at h
    cases h
    exact .inl ⟨hk, rfl⟩
  · exact .inr ⟨hk, rfl⟩

/-- A step of a running call appends to the output and writes the run, and what it appends and makes of the run is the
same in every state with the same run, input and tables. -/
theorem step_next_of_busy {s t : State} (hb : s.busy = true) (h : step s = .next t) :
    ∃ (ys : List Byte) (st : Stream),
      t = { s with res := none, buffers.output := s.buffers.output ++ ys, stream := st } ∧
      ∀ s' : State, s'.stream = s.stream → s'.enc = s.enc → s'.dec = s.dec → s'.buffers.input = s.buffers.input →
        step s' = .next { s' with res := none, buffers.output := s'.buffers.output ++ ys, stream := st } := by
  obtain ⟨op, k, count, hs⟩ := busy_iff.mp hb
  obtain ⟨hk, rfl⟩ | ⟨hk, rfl⟩ := step_running_cases hs h
  · let x := op.block s.enc s.dec s.buffers.input k
    refine ⟨x.2, .running op (k + 1) (count + x.1), rfl, fun s' hstream henc hdec hinput => ?_⟩
    rw [step_running (hstream.trans hs), sequencerStep_of_lt (by rwa [hinput])]
    simp only [x, ← henc, ← hdec, ← hinput]
    rfl
  · refine ⟨[], .done op k count, by rw [List.append_nil], fun s' hstream _ _ hinput => ?_⟩
    rw [step_of_running_end (hstream.trans hs) (by rwa [hinput]), List.append_nil]

/-- Settles O7: `step_next_of_busy`, applied to `s` with other words presented. -/
theorem runningCallAcceptsNoCommand : Obligations.RunningCallAcceptsNoCommand := by
  intro s t cs hb h
  obtain ⟨ys, st, rfl, hstep⟩ := step_next_of_busy hb h
  exact ⟨rfl, hstep { s with commands := cs } rfl rfl rfl rfl⟩

/-- Settles O11: `step_next_of_busy`, applied to `s` with another output buffer, and `exec_with_output` for an
operation. -/
theorem outputIsOnlyAppendedTo : Obligations.OutputIsOnlyAppendedTo := by
  constructor
  · intro s t hb h
    obtain ⟨ys, st, rfl, hstep⟩ := step_next_of_busy hb h
    exact ⟨ys, rfl, fun o => hstep { s with buffers.output := o } rfl rfl rfl rfl⟩
  · intro i s t h
    exact ⟨congrArg Buffers.output (exec_next_buffers h), exec_with_output h⟩

end Sys2Proof.Machine
end

section
/-! SUPPORT. The step of an instance that is not busy: it takes the first presented operation or does nothing, whatever
the operation before left (10_state.md R22, R27, R28; 20_memory.md R49; 60_exceptions.md R168). -/

namespace Sys2Proof.Machine

/-- Settles O5: `step_not_busy` with a word that decodes. -/
theorem stepRunsDecodedInstruction : Obligations.StepRunsDecodedInstruction := by
  intro s c b rest i hb hc hd
  simp only [step_not_busy hb, hc, hd]
  rfl

/-- Settles O6: `step_not_busy` with no word presented. -/
theorem idleStepChangesNothing : Obligations.IdleStepChangesNothing := by
  intro s hb hc
  have hstep := step_not_busy hb
  rw [hc] at hstep
  exact hstep

/-- Settles O55: what `step_not_busy` says of a step reads the presented words, the tables and the other instances'
claims alone. -/
theorem buffersAreNotRetained : Obligations.BuffersAreNotRetained := fun s b r st hb hb' =>
  (step_not_busy (s := { s with buffers := b, res := r, stream := st }) hb').trans (step_not_busy hb).symm

/-- Settles O9: a faulted run is one of those that a step does not read. -/
theorem faultDoesNotAffectLaterOperations : Obligations.FaultDoesNotAffectLaterOperations := fun s v =>
  buffersAreNotRetained { s with stream := .idle } s.buffers s.res (.faulted v) rfl rfl

/-- An operation started without a response held returns one exactly when it is a block operation. -/
theorem exec_next_res {i : Instr} {s t : State} (hres : s.res = none) (h : exec i s = .next t) :
    t.res ≠ none ↔ i ≠ .senc ∧ i ≠ .sdec := by
  rcases exec_cases i s with ⟨hsenc, hsdec, w, he⟩ | ⟨rfl, he⟩ | ⟨rfl, he⟩ <;> rw [he] at h
  · cases h
    simp [hsenc, hsdec]
  all_goals
    rw [launch_next h]
    simp [hres]

/-- Settles O8: a block or the end of a running call holds no response, nor does an idle step, and an accepted operation
starts without one. -/
theorem onlyBlockOperationsRespond : Obligations.OnlyBlockOperationsRespond := by
  intro s t h
  obtain ⟨op, k, count, hs, -⟩ | ⟨-, hc, rfl⟩ | ⟨hb, p, rest, i, hc, hd, he⟩ := step_cases h
  · have hb := busy_iff.mpr ⟨op, k, count, hs⟩
    obtain ⟨ys, st, rfl, -⟩ := step_next_of_busy hb h
    simp [hb]
  · simp [hc]
  · rw [exec_next_res rfl he]
    constructor
    · rintro ⟨hsenc, hsdec⟩
      exact ⟨hb, p, rest, i, hc, hd, hsenc, hsdec⟩
    · rintro ⟨-, p', rest', i', hc', hd', hblock⟩
      cases hc.symm.trans hc'
      cases hd.symm.trans hd'
      exact hblock

end Sys2Proof.Machine
end

section
/-! SUPPORT. The invariants of a step: what the host holds stays as it was, a run stays one that a launch and block
steps can make, and a machine that is ready has a step and stays ready (20_memory.md R41, R47, R51; 43_stream.md R143 to
R146; 60_exceptions.md R160, R164). -/

namespace Sys2Proof.Machine

/-- A step of the sequencer that answers a next state writes the output buffer and the run only. -/
theorem sequencerStep_next {op : StreamOp} {k count : Nat} {s t : State} (h : sequencerStep op k count s = .next t) :
    t = { s with buffers := { s.buffers with output := t.buffers.output }, stream := t.stream } := by
  obtain ⟨-, ys, cnt, rfl, -, -⟩ | ⟨-, rfl⟩ := sequencerStep_cases h
  · rfl
  · rfl

theorem step_next_others {s t : State} (h : step s = .next t) : t.others = s.others := by
  obtain ⟨op, k, count, -, hseq⟩ | ⟨-, -, rfl⟩ | ⟨-, p, rest, i, -, -, he⟩ := step_cases h
  · rw [sequencerStep_next hseq]
  · rfl
  · rw [exec_next he]
    rfl

/-- Settles O12: `step_next_of_busy` is the frame of a running call, and `exec_next` that of an operation. -/
theorem stepKeepsTheHostsInputs : Obligations.StepKeepsTheHostsInputs := by
  refine ⟨fun s t => step_next_others, fun s t hb h => ?_, fun i s t h => ⟨exec_next_buffers h, ?_⟩⟩
  · obtain ⟨ys, st, rfl, -⟩ := step_next_of_busy hb h
    exact ⟨rfl, rfl, rfl⟩
  · rw [exec_next h]

/-! The invariant of a run (R143 to R146, R160). -/

theorem inv_of_idle {s : State} (hs : s.stream = .idle) : s.Inv := by
  simp [State.Inv, hs]

/-- A launch starts a run within its bounds, or records the wrong length that it found. -/
theorem launch_next_inv {op : StreamOp} {s t : State} (h : launch op s = .next t) : t.Inv := by
  obtain ⟨hexcl, hlen, rfl⟩ | ⟨-, hlen, rfl⟩ := launch_next_cases h
  · exact ⟨hexcl, StreamOp.lengthOk_iff.mpr hlen, Nat.zero_le _, Nat.zero_le _, fun _ => rfl⟩
  · cases op with
    | senc => exact ⟨rfl, hlen⟩
    | sdec => exact ⟨rfl, hlen⟩

theorem exec_next_inv {i : Instr} {s t : State} (hs : s.stream = .idle) (h : exec i s = .next t) : t.Inv := by
  rcases exec_cases i s with ⟨-, -, w, he⟩ | ⟨-, he⟩ | ⟨-, he⟩ <;> rw [he] at h
  · cases h
    exact inv_of_idle hs
  all_goals exact launch_next_inv h

/-- A block step raises `k` by 1 and the count by at most 2, and the end takes `k = n` along. -/
theorem sequencerStep_next_inv {op : StreamOp} {k count : Nat} {s t : State} (hinv : RunInv s op k count)
    (h : sequencerStep op k count s = .next t) : t.Inv := by
  obtain ⟨hk, ys, cnt, rfl, hcnt, hsenc⟩ | ⟨hk, rfl⟩ := sequencerStep_cases h
  · obtain ⟨hexcl, hlen, -, hcount, hzero⟩ := hinv
    exact ⟨hexcl, hlen, hk, by omega, fun hop => by rw [hzero hop, hsenc hop]⟩
  · exact ⟨hinv, hk⟩

/-- Settles O52: a running call steps from its invariant, and every other step leaves no run or the one of a launch. -/
theorem stepKeepsInvariant : Obligations.StepKeepsInvariant := by
  intro s t hinv h
  obtain ⟨op, k, count, hs, hseq⟩ | ⟨-, -, rfl⟩ | ⟨-, p, rest, i, -, -, he⟩ := step_cases h
  · rw [State.Inv, hs] at hinv
    exact sequencerStep_next_inv (s := { s with res := none }) hinv hseq
  · exact inv_of_idle s.retire_stream
  · exact exec_next_inv rfl he

/-- Settles O51: every field is the one that `State.reset` writes, and with no run and no command presented there is
nothing to keep. -/
theorem resetState : Obligations.ResetState :=
  have hinv : State.reset.Inv := inv_of_idle rfl
  ⟨rfl, rfl, rfl, rfl, rfl, hinv, hinv, List.forall_mem_nil _⟩

/-! A ready machine (R112, R131, R164). -/

/-- A step presents no new command. -/
theorem step_next_commands_subset {s t : State} (h : step s = .next t) : t.commands ⊆ s.commands := by
  obtain ⟨op, k, count, -, hseq⟩ | ⟨-, -, rfl⟩ | ⟨-, p, rest, i, hc, -, he⟩ := step_cases h
  · rw [sequencerStep_next hseq]
    exact List.Subset.refl _
  · exact List.Subset.refl _
  · rw [exec_next he, hc]
    exact List.subset_cons_self p rest

theorem State.Ready.step_next {s t : State} (hready : s.Ready) (h : step s = .next t) : t.Ready := by
  obtain ⟨hinv, hcommands⟩ := hready
  refine ⟨stepKeepsInvariant s t hinv h, fun p hp => ?_⟩
  rw [step_next_others h]
  exact hcommands p (step_next_commands_subset h hp)

/-- A run with `k` at most `n` has a step: its next block, or its end. -/
theorem exists_step_of_running {s : State} {op : StreamOp} {k count : Nat} (hs : s.stream = .running op k count)
    (hk : k ≤ op.blocks s.buffers.input.length) : ∃ t, step s = .next t := by
  rcases hk.lt_or_eq with hlt | heq
  · exact ⟨_, (step_running hs).trans (sequencerStep_of_lt hlt)⟩
  · exact ⟨_, step_of_running_end hs heq⟩

theorem exists_launch_of_exclusive (op : StreamOp) {s : State} (hexcl : s.buffers.Exclusive s.others) :
    ∃ t, launch op s = .next t := by
  obtain ⟨happ, hshare⟩ := hexcl
  obtain ⟨-, hnext⟩ := launch_refused_or_next op s
  exact hnext (by simp [happ, hshare])

/-- On buffers that keep the host's duties every operation completes. -/
theorem exists_exec_of_exclusive (i : Instr) {s : State} (hexcl : s.buffers.Exclusive s.others) :
    ∃ t, exec i s = .next t := by
  rcases exec_cases i s with ⟨-, -, w, he⟩ | ⟨-, he⟩ | ⟨-, he⟩ <;> rw [he]
  · exact ⟨_, rfl⟩
  all_goals exact exists_launch_of_exclusive _ hexcl

theorem State.Ready.exists_step {s : State} (hready : s.Ready) : ∃ t, step s = .next t := by
  obtain ⟨hinv, hcommands⟩ := hready
  cases hb : s.busy with
  | true =>
    obtain ⟨op, k, count, hs⟩ := busy_iff.mp hb
    rw [State.Inv, hs] at hinv
    obtain ⟨-, -, hk, -⟩ := hinv
    exact exists_step_of_running hs hk
  | false =>
    cases hc : s.commands with
    | nil => exact ⟨_, idleStepChangesNothing s hb hc⟩
    | cons p rest =>
      obtain ⟨hwf, hexcl⟩ := hcommands p (hc ▸ List.mem_cons_self)
      obtain ⟨i, hd⟩ := (CmdFields.wellFormed_iff_decode_ok _).mp hwf
      rw [stepRunsDecodedInstruction s p.word p.buffers rest i hb hc hd]
      exact exists_exec_of_exclusive i hexcl

/-- Settles O53: `Ready` gives a step, and every step keeps `Ready`. -/
theorem readyMachineNeverStops : Obligations.ReadyMachineNeverStops := fun _ hready =>
  have ⟨t, h⟩ := hready.exists_step
  ⟨t, h, hready.step_next h⟩

end Sys2Proof.Machine
end

section
/-! SUPPORT. The progress of a run: its output is its output buffer at launch and the blocks done so far, since a loop
over one more block does one more round (20_memory.md R46; 43_stream.md R140, R142). -/

namespace Sys2Proof.Machine

theorem sencBytes_append (enc : DataWord → Redundancy) (ys : List Byte) :
    ∀ xs : List Byte, xs.length % 3 = 0 → sencBytes enc (xs ++ ys) = sencBytes enc xs ++ sencBytes enc ys
  | b0 :: b1 :: b2 :: rest, hlen => by
    have ih := sencBytes_append enc ys rest (by simp only [List.length_cons] at hlen; omega)
    simp [sencBytes, ih]
  | [], _ => rfl

theorem sdecBytes_append (enc : DataWord → Redundancy) (dec : Syndrome → Mask) (ys : List Byte) :
    ∀ xs : List Byte, xs.length % 6 = 0 →
      sdecBytes enc dec (xs ++ ys) =
        ((sdecBytes enc dec xs).1 + (sdecBytes enc dec ys).1, (sdecBytes enc dec xs).2 ++ (sdecBytes enc dec ys).2)
  | r0 :: r1 :: r2 :: r3 :: r4 :: r5 :: rest, hlen => by
    have ih := sdecBytes_append enc dec ys rest (by simp only [List.length_cons] at hlen; omega)
    simp [sdecBytes, ih, Nat.add_assoc]
  | [], _ => by simp [sdecBytes]

/-- A loop over whole blocks and what follows them is the loop over the blocks and then over the rest. -/
theorem StreamOp.process_append (op : StreamOp) (enc : DataWord → Redundancy) (dec : Syndrome → Mask)
    {xs : List Byte} (hlen : xs.length % op.blockBytes = 0) (ys : List Byte) :
    op.process enc dec (xs ++ ys) =
      let x := op.process enc dec xs
      let y := op.process enc dec ys
      (x.1 + y.1, x.2 ++ y.2) := by
  cases op with
  | senc => exact congrArg (Prod.mk 0) (sencBytes_append enc ys xs hlen)
  | sdec => exact sdecBytes_append enc dec ys xs hlen

/-- One more block of the input gives one more round of the loop. -/
theorem StreamOp.process_take_succ (op : StreamOp) (enc : DataWord → Redundancy) (dec : Syndrome → Mask)
    {input : List Byte} {k : Nat} (hk : k < op.blocks input.length) :
    op.process enc dec (input.take (op.blockBytes * (k + 1))) =
      let x := op.process enc dec (input.take (op.blockBytes * k))
      let y := op.block enc dec input k
      (x.1 + y.1, x.2 ++ y.2) := by
  have hle : op.blockBytes * k ≤ input.length := (Nat.mul_le_mul_left _ hk.le).trans (Nat.mul_div_le _ _)
  rw [Nat.mul_succ, List.take_add]
  exact op.process_append enc dec (by simp [hle]) _

/-- `Progress` of either operation, running or done, in terms of its loop over the blocks before `k`. -/
theorem progress_iff {s : State} {op : StreamOp} {k count : Nat} {out0 : List Byte}
    (hs : s.stream = .running op k count ∨ s.stream = .done op k count) :
    s.Progress out0 ↔
      let y := op.process s.enc s.dec (s.buffers.input.take (op.blockBytes * k))
      s.buffers.output = out0 ++ y.2 ∧ (op = .sdec → count = y.1) := by
  cases op <;> rcases hs with hs | hs <;> simp [State.Progress, hs, StreamOp.process, StreamOp.blockBytes]

/-- A launch has done no block. -/
theorem launch_next_progress {op : StreamOp} {s t : State} (h : launch op s = .next t) :
    t.Progress s.buffers.output := by
  obtain ⟨-, -, rfl⟩ | ⟨-, -, rfl⟩ := launch_next_cases h
  · rw [progress_iff (.inl rfl)]
    cases op <;> simp [StreamOp.process, sencBytes, sdecBytes]
  · rfl

/-- Settles O54: a launch has done no block, a block step does one more round of the loop, and the end keeps `k`, the
output and the count. -/
theorem stepKeepsProgress : Obligations.StepKeepsProgress := by
  constructor
  · rintro s t (h | h)
    · exact launch_next_progress (op := .senc) h
    · exact launch_next_progress (op := .sdec) h
  · intro s t out0 hb hp h
    obtain ⟨op, k, count, hs⟩ := busy_iff.mp hb
    obtain ⟨hout, hcount⟩ := (progress_iff (.inl hs)).mp hp
    obtain ⟨hk, rfl⟩ | ⟨-, rfl⟩ := step_running_cases hs h
    · have hround := op.process_take_succ s.enc s.dec hk
      refine (progress_iff (.inl rfl)).mpr ⟨?_, fun hop => ?_⟩
      · refine Eq.trans ?_ (congrArg (out0 ++ ·.2) hround.symm)
        simp only [hout, List.append_assoc]
      · refine Eq.trans ?_ (congrArg Prod.fst hround.symm)
        simp only [hcount hop]
    · exact (progress_iff (.inr rfl)).mpr ⟨hout, hcount⟩

end Sys2Proof.Machine
end
